-- ==== Sys2Proof/Word.lean ====
section
/-! DEFINITION. The word types of the core and their plainest helpers (00_scope.md R6, R7, R8). Every value is
unsigned; nothing here sign-extends. -/

namespace Sys2Proof

/-- A byte: general registers, timers and memory cells (`REG_WIDTH`, `TIMER_WIDTH`, R6). -/
abbrev Byte := BitVec 8

/-- A 16-bit word: I, PC, stack entries and opcodes (`I_WIDTH`, `PC_WIDTH`, `STACK_ENTRY_WIDTH`, R6). -/
abbrev Word := BitVec 16

/-- A 4-bit register number, 0x0-0xF (10_state.md R20, R23). -/
abbrev RegIdx := BitVec 4

/-- A 4-bit nibble used as a count 0-15 (30_encoding.md R71, field `n`). -/
abbrev Nibble := BitVec 4

/-- A 12-bit address field (30_encoding.md R71, field `nnn`). -/
abbrev Addr := BitVec 12

/-- A key index 0x0-0xF: `KEY_COUNT` = 16 (00_scope.md R6). -/
abbrev KeyIdx := BitVec 4

/-- The register number of VF (00_scope.md R9: `VF` is `V[15]`). -/
abbrev regF : RegIdx := 0xF#4

/-- `MEM_SIZE`: addresses 0x000-0xFFF exist (00_scope.md R6, 20_memory.md R50). -/
abbrev memSize : Nat := 0x1000

/-- `PROG_BASE`: the load address and entry point (00_scope.md R6). -/
abbrev progBase : Nat := 0x200

/-- The number of font bytes: 16 glyphs of 5 bytes at 0x000 (00_scope.md R6, 20_memory.md R57). -/
abbrev fontSize : Nat := 80

end Sys2Proof
end

