-- ==== Sys2Proof/Config.lean ====
section
/-! DEFINITION. The parameters of the core (00_scope.md R6), the configuration function `Key.map`
(60_exceptions.md R211), and the free values: constants with no body, of which nothing can be proved but what
holds of every value. -/

namespace Sys2Proof

/-- `UNKNOWN_OPCODE_POLICY` (00_scope.md R6, 30_encoding.md R81). -/
inductive UnknownPolicy where
  | ignore   -- an unrecognised opcode changes nothing: the reference behaviour
  | fault    -- an unrecognised opcode raises `UNKNOWN_OPCODE(op)`
deriving DecidableEq, Repr, Inhabited

/-- `ALU_ALIAS_MODE` (00_scope.md R6, 42_alu.md R150). -/
inductive AliasMode where
  | latched     -- operands are read once, before any write
  | sequential  -- each assignment reads the registers as they stand when it executes
deriving DecidableEq, Repr, Inhabited

/-- The two agents that take steps (20_memory.md R60). -/
inductive Agent where
  | core   -- an instruction step or a key-event step
  | timer  -- a tick of the external timing loop
deriving DecidableEq, Repr, Inhabited

/-- The parameters a model of the core takes as arguments (00_scope.md R6). They are plain data, held in
`State.cfg`, and no step writes them: a claim about every state is a claim about every value of them (log 1). -/
structure Config where
  /-- `STACK_DEPTH`, an integer >= 1 (10_state.md R29; `Config.wf` says the bound). -/
  stackDepth : Nat
  /-- `FONT_DATA`, the 80 font bytes (70_reset_and_hazards.md R230). -/
  fontData : Vector Byte fontSize
  /-- `UNKNOWN_OPCODE_POLICY`. -/
  unknownOpcodePolicy : UnknownPolicy
  /-- `ALU_ALIAS_MODE`. -/
  aluAliasMode : AliasMode
  /-- `TICK_DURING_KEY_WAIT` (43_io.md R173). -/
  tickDuringKeyWait : Bool
  /-- `Key.map` (60_exceptions.md R211): the raw codes that map to a key index; the first pair counts, and any
  code not listed maps to NotFound (log 2). -/
  keyMap : List (Nat × KeyIdx)
deriving DecidableEq, Repr

/-- Free value: `STACK_DEPTH` less 1 at reset. The spec fixes only `STACK_DEPTH >= 1` (log 1; safe). -/
opaque Config.freeStackDepthPred : Nat

/-- Free value: byte k of `FONT_DATA` at reset (log 1; safe). -/
opaque Config.freeFontByte : Nat → Byte

/-- Free value: `Key.map` at reset (log 2; safe). -/
opaque Config.freeKeyMap : List (Nat × KeyIdx)

/-- Free value: the n-th answer drawn, where it is `Rnd.next()`'s (41_extended.md R124: "under no law"; log 5). -/
opaque Config.freeRandom : Nat → Byte

/-- Free value: the n-th answer drawn, where it is `Key.isDown(k)`'s (60_exceptions.md R211; log 5). -/
opaque Config.freeKeyDown : Nat → Byte → Bool

/-- Free value: the n-th answer drawn, where it is `Screen.draw`'s collision answer (60_exceptions.md R211; log 5). -/
opaque Config.freeCollision : Nat → Bool

/-- Free value: the n-th answer drawn, where it is `Host.nextKeyDown()`'s; `none` where no key-down event has come
yet, so that the call is still blocked (60_exceptions.md R211, 93 I11; log 6). -/
opaque Config.freeKeyEvent : Nat → Option Nat

/-- Free value: the n-th answer drawn, where it says which agent moves next (60_exceptions.md R205: any
interleaving is a possible run; log 3). -/
opaque Config.freeTurn : Nat → Agent

/-- The parameters at reset: the spec's default where R6 states one, a free value where the spec leaves it open. -/
def Config.reference : Config where
  stackDepth := Config.freeStackDepthPred + 1
  fontData := Vector.ofFn fun k => Config.freeFontByte k.val
  unknownOpcodePolicy := .ignore
  aluAliasMode := .latched
  tickDuringKeyWait := false
  keyMap := Config.freeKeyMap

/-- The conventional font bytes (93_implementation_defined.md G10, "from general knowledge, not in source"). No
definition of the model uses them: a claim that needs concrete glyphs takes a state whose `fontData` is this. -/
def Config.conventionalFont : Vector Byte fontSize :=
  #v[0xF0#8, 0x90#8, 0x90#8, 0x90#8, 0xF0#8, 0x20#8, 0x60#8, 0x20#8, 0x20#8, 0x70#8,
     0xF0#8, 0x10#8, 0xF0#8, 0x80#8, 0xF0#8, 0xF0#8, 0x10#8, 0xF0#8, 0x10#8, 0xF0#8] ++
  #v[0x90#8, 0x90#8, 0xF0#8, 0x10#8, 0x10#8, 0xF0#8, 0x80#8, 0xF0#8, 0x10#8, 0xF0#8,
     0xF0#8, 0x80#8, 0xF0#8, 0x90#8, 0xF0#8, 0xF0#8, 0x10#8, 0x20#8, 0x40#8, 0x40#8] ++
  (#v[0xF0#8, 0x90#8, 0xF0#8, 0x90#8, 0xF0#8, 0xF0#8, 0x90#8, 0xF0#8, 0x10#8, 0xF0#8,
     0xF0#8, 0x90#8, 0xF0#8, 0x90#8, 0x90#8, 0xE0#8, 0x90#8, 0xE0#8, 0x90#8, 0xE0#8] ++
  #v[0xF0#8, 0x80#8, 0x80#8, 0x80#8, 0xF0#8, 0xE0#8, 0x90#8, 0x90#8, 0x90#8, 0xE0#8,
     0xF0#8, 0x80#8, 0xF0#8, 0x80#8, 0xF0#8, 0xF0#8, 0x80#8, 0xF0#8, 0x80#8, 0x80#8])

end Sys2Proof
end

