-- ==== Sys2Proof/Syntax.lean ====
section
/-! DEFINITION. The instructions: one constructor per row of spec/opcode_table.json, in its order, with the row's
fields as operands (30_encoding.md R71-R74). The operand types carry the ranges of R23: a register number has 4
bits, an address 12. -/

namespace Sys2Proof

/-- An instruction of the core (00_scope.md R2: 34 in all). -/
inductive Instr where
  -- Primary Dispatcher (40_primary.md)
  | cls                             -- 00E0 CLS (R100)
  | ret                             -- 00EE RET (R101)
  -- Extended Dispatcher (41_extended.md)
  | jp (nnn : Addr)                 -- 1nnn JP nnn (R113)
  | call (nnn : Addr)               -- 2nnn CALL nnn (R114)
  | seImm (x : RegIdx) (kk : Byte)  -- 3xkk SE Vx, kk (R115)
  | sneImm (x : RegIdx) (kk : Byte) -- 4xkk SNE Vx, kk (R116)
  | seReg (x y : RegIdx)            -- 5xy- SE Vx, Vy (R117)
  | ldImm (x : RegIdx) (kk : Byte)  -- 6xkk LD Vx, kk (R118)
  | addImm (x : RegIdx) (kk : Byte) -- 7xkk ADD Vx, kk (R119)
  -- ALU Sub-dispatcher (42_alu.md)
  | ldReg (x y : RegIdx)            -- 8xy0 LD Vx, Vy (R151)
  | orReg (x y : RegIdx)            -- 8xy1 OR Vx, Vy (R152)
  | andReg (x y : RegIdx)           -- 8xy2 AND Vx, Vy (R153)
  | xorReg (x y : RegIdx)           -- 8xy3 XOR Vx, Vy (R154)
  | addReg (x y : RegIdx)           -- 8xy4 ADD Vx, Vy (R155)
  | subReg (x y : RegIdx)           -- 8xy5 SUB Vx, Vy (R156)
  | shr (x y : RegIdx)              -- 8xy6 SHR Vx (R157); y is carried and never read
  | subn (x y : RegIdx)             -- 8xy7 SUBN Vx, Vy (R158)
  | shl (x y : RegIdx)              -- 8xyE SHL Vx (R159); y is carried and never read
  -- Extended Dispatcher, continued
  | sneReg (x y : RegIdx)           -- 9xy- SNE Vx, Vy (R121)
  | ldI (nnn : Addr)                -- Annn LD I, nnn (R122)
  | jpV0 (nnn : Addr)               -- Bnnn JP V0, nnn (R123)
  | rnd (x : RegIdx) (kk : Byte)    -- Cxkk RND Vx, kk (R124)
  | drw (x y : RegIdx) (n : Nibble) -- Dxyn DRW Vx, Vy, n (R125)
  | skp (x : RegIdx)                -- Ex9E SKP Vx (R126)
  | sknp (x : RegIdx)               -- ExA1 SKNP Vx (R127)
  -- I/O Sub-dispatcher (43_io.md)
  | ldVxDt (x : RegIdx)             -- Fx07 LD Vx, DT (R171)
  | ldVxK (x : RegIdx)              -- Fx0A LD Vx, K (R172)
  | ldDtVx (x : RegIdx)             -- Fx15 LD DT, Vx (R174)
  | ldStVx (x : RegIdx)             -- Fx18 LD ST, Vx (R175)
  | addI (x : RegIdx)               -- Fx1E ADD I, Vx (R176)
  | ldF (x : RegIdx)                -- Fx29 LD F, Vx (R177)
  | ldB (x : RegIdx)                -- Fx33 LD B, Vx (R178)
  | ldIVx (x : RegIdx)              -- Fx55 LD [I], Vx (R179)
  | ldVxI (x : RegIdx)              -- Fx65 LD Vx, [I] (R180)
deriving DecidableEq, Repr, Inhabited

/-- Why the decoder gives no instruction: the four unrecognised spaces of 30_encoding.md R80, or too few bytes. -/
inductive DecodeReject where
  | group0     -- 0nnn other than 00E0, 00EE (40_primary.md R102)
  | group8     -- 8xyn, n in {8, 9, A, B, C, D, F} (42_alu.md R160)
  | groupE     -- Exkk, kk not in {9E, A1} (41_extended.md R129)
  | groupF     -- Fxkk, kk not one of the nine selectors (43_io.md R181)
  | truncated  -- fewer than the two bytes of an opcode (30_encoding.md R70)
deriving DecidableEq, Repr

end Sys2Proof
end

