-- ==== Sys2Proof/WellFormed.lean ====
section
/-! DEFINITION. The two checks of well-formedness there are. An instruction's operands need none: their types hold
exactly the values of 10_state.md R23 and 30_encoding.md R72, and no combination of them is illegal. A WORD is
checked against the opcode table, written here as its own rows (mask and match) so that the decoder can be held
against it; a CONFIGURATION is checked for `STACK_DEPTH >= 1`. -/

namespace Sys2Proof

/-- A row of the opcode table: the bits it fixes (`mask`) and their values (`match`). -/
structure OpcodeRow where
  mnemonic : String
  mask : Word
  value : Word
deriving DecidableEq, Repr

/-- A word is of a row when its fixed bits have the row's values. -/
def OpcodeRow.matches (r : OpcodeRow) (op : Word) : Bool := op &&& r.mask == r.value

/-- The rows of the Primary and Extended Dispatchers up to group 7 (30_encoding.md R74). -/
def opcodeRowsLow : List OpcodeRow :=
  [⟨"CLS", 0xFFFF#16, 0x00E0#16⟩, ⟨"RET", 0xFFFF#16, 0x00EE#16⟩, ⟨"JP", 0xF000#16, 0x1000#16⟩,
   ⟨"CALL", 0xF000#16, 0x2000#16⟩, ⟨"SE_imm", 0xF000#16, 0x3000#16⟩, ⟨"SNE_imm", 0xF000#16, 0x4000#16⟩,
   ⟨"SE_reg", 0xF000#16, 0x5000#16⟩, ⟨"LD_imm", 0xF000#16, 0x6000#16⟩, ⟨"ADD_imm", 0xF000#16, 0x7000#16⟩]

/-- The rows of the ALU Sub-dispatcher (30_encoding.md R77). -/
def opcodeRowsAlu : List OpcodeRow :=
  [⟨"LD_reg", 0xF00F#16, 0x8000#16⟩, ⟨"OR", 0xF00F#16, 0x8001#16⟩, ⟨"AND", 0xF00F#16, 0x8002#16⟩,
   ⟨"XOR", 0xF00F#16, 0x8003#16⟩, ⟨"ADD_reg", 0xF00F#16, 0x8004#16⟩, ⟨"SUB", 0xF00F#16, 0x8005#16⟩,
   ⟨"SHR", 0xF00F#16, 0x8006#16⟩, ⟨"SUBN", 0xF00F#16, 0x8007#16⟩, ⟨"SHL", 0xF00F#16, 0x800E#16⟩]

/-- The rows of groups 9 to E (30_encoding.md R76, R78, R79). -/
def opcodeRowsHigh : List OpcodeRow :=
  [⟨"SNE_reg", 0xF000#16, 0x9000#16⟩, ⟨"LD_I", 0xF000#16, 0xA000#16⟩, ⟨"JP_V0", 0xF000#16, 0xB000#16⟩,
   ⟨"RND", 0xF000#16, 0xC000#16⟩, ⟨"DRW", 0xF000#16, 0xD000#16⟩, ⟨"SKP", 0xF0FF#16, 0xE09E#16⟩,
   ⟨"SKNP", 0xF0FF#16, 0xE0A1#16⟩]

/-- The rows of the I/O Sub-dispatcher (30_encoding.md R78). -/
def opcodeRowsIo : List OpcodeRow :=
  [⟨"LD_Vx_DT", 0xF0FF#16, 0xF007#16⟩, ⟨"LD_Vx_K", 0xF0FF#16, 0xF00A#16⟩, ⟨"LD_DT_Vx", 0xF0FF#16, 0xF015#16⟩,
   ⟨"LD_ST_Vx", 0xF0FF#16, 0xF018#16⟩, ⟨"ADD_I", 0xF0FF#16, 0xF01E#16⟩, ⟨"LD_F", 0xF0FF#16, 0xF029#16⟩,
   ⟨"LD_B", 0xF0FF#16, 0xF033#16⟩, ⟨"LD_I_Vx", 0xF0FF#16, 0xF055#16⟩, ⟨"LD_Vx_I", 0xF0FF#16, 0xF065#16⟩]

/-- The opcode table, 34 rows. -/
def opcodeTable : List OpcodeRow := opcodeRowsLow ++ opcodeRowsAlu ++ opcodeRowsHigh ++ opcodeRowsIo

/-- A word is well formed when some row of the opcode table matches it: the recognised opcodes of 30_encoding.md
R80. -/
def wellFormedWord (op : Word) : Bool := opcodeTable.any fun r => r.matches op

/-- Two rows overlap when no bit fixed by both tells them apart (30_encoding.md R83 says none do). -/
def OpcodeRow.overlaps (r q : OpcodeRow) : Bool := (r.value ^^^ q.value) &&& r.mask &&& q.mask == 0#16

/-- A configuration is well formed when `STACK_DEPTH >= 1` (00_scope.md R6). -/
def Config.wf (c : Config) : Bool := decide (1 ≤ c.stackDepth)

end Sys2Proof
end

