-- ==== Sys2Proof/Decode.lean ====
section
/-! DEFINITION. The decoder, the four-level dispatch tree of 30_encoding.md R74, total on every word and rejecting by
name; and after it the encoder, written from the formats of R73 and the encodings of files 40 to 43. -/

namespace Sys2Proof

/-! ## Opcode fields (30_encoding.md R71) -/

/-- `op[15:12]`, the family selector. -/
def opHigh (op : Word) : BitVec 4 := op.extractLsb' 12 4
/-- `op[11:8]`, a register index. -/
def opX (op : Word) : RegIdx := op.extractLsb' 8 4
/-- `op[7:4]`, a register index. -/
def opY (op : Word) : RegIdx := op.extractLsb' 4 4
/-- `op[3:0]`, a count or the selector of group 8. -/
def opN (op : Word) : Nibble := op.extractLsb' 0 4
/-- `op[7:0]`, an immediate byte or the selector of groups E and F. -/
def opKk (op : Word) : Byte := op.extractLsb' 0 8
/-- `op[11:0]`, an address. -/
def opNnn (op : Word) : Addr := op.extractLsb' 0 12

/-- `(hi:8 bits) : (lo:8 bits)`, the big-endian assembly of an opcode (00_scope.md R7, 20_memory.md R53). -/
def joinBytes (hi lo : Byte) : Word := hi ++ lo

/-- The byte of a word stored at the lower address. -/
def highByte (w : Word) : Byte := w.extractLsb' 8 8
/-- The byte of a word stored at the higher address. -/
def lowByte (w : Word) : Byte := w.extractLsb' 0 8

/-! ## The dispatch tree (30_encoding.md R74) -/

/-- The ALU Sub-dispatcher `eight_xyn`: selects by the low nibble (R77). -/
def decodeAlu (op : Word) : Except DecodeReject Instr :=
  let x := opX op
  let y := opY op
  match opN op with
  | 0x0#4 => .ok (.ldReg x y)
  | 0x1#4 => .ok (.orReg x y)
  | 0x2#4 => .ok (.andReg x y)
  | 0x3#4 => .ok (.xorReg x y)
  | 0x4#4 => .ok (.addReg x y)
  | 0x5#4 => .ok (.subReg x y)
  | 0x6#4 => .ok (.shr x y)
  | 0x7#4 => .ok (.subn x y)
  | 0xE#4 => .ok (.shl x y)
  | _ => .error .group8

/-- Group E selects by the low byte (R78). -/
def decodeKeySkip (op : Word) : Except DecodeReject Instr :=
  match opKk op with
  | 0x9E#8 => .ok (.skp (opX op))
  | 0xA1#8 => .ok (.sknp (opX op))
  | _ => .error .groupE

/-- The I/O Sub-dispatcher `F_x`: selects by the low byte (R78, 43_io.md R170). -/
def decodeIo (op : Word) : Except DecodeReject Instr :=
  let x := opX op
  match opKk op with
  | 0x07#8 => .ok (.ldVxDt x)
  | 0x0A#8 => .ok (.ldVxK x)
  | 0x15#8 => .ok (.ldDtVx x)
  | 0x18#8 => .ok (.ldStVx x)
  | 0x1E#8 => .ok (.addI x)
  | 0x29#8 => .ok (.ldF x)
  | 0x33#8 => .ok (.ldB x)
  | 0x55#8 => .ok (.ldIVx x)
  | 0x65#8 => .ok (.ldVxI x)
  | _ => .error .groupF

/-- The Extended Dispatcher: selects a family by the high nibble alone (R76); groups 5 and 9 do not examine the low
nibble (R79). -/
def decodeExtended (op : Word) : Except DecodeReject Instr :=
  match opHigh op with
  | 0x0#4 => .error .group0
  | 0x1#4 => .ok (.jp (opNnn op))
  | 0x2#4 => .ok (.call (opNnn op))
  | 0x3#4 => .ok (.seImm (opX op) (opKk op))
  | 0x4#4 => .ok (.sneImm (opX op) (opKk op))
  | 0x5#4 => .ok (.seReg (opX op) (opY op))
  | 0x6#4 => .ok (.ldImm (opX op) (opKk op))
  | 0x7#4 => .ok (.addImm (opX op) (opKk op))
  | 0x8#4 => decodeAlu op
  | 0x9#4 => .ok (.sneReg (opX op) (opY op))
  | 0xA#4 => .ok (.ldI (opNnn op))
  | 0xB#4 => .ok (.jpV0 (opNnn op))
  | 0xC#4 => .ok (.rnd (opX op) (opKk op))
  | 0xD#4 => .ok (.drw (opX op) (opY op) (opN op))
  | 0xE#4 => decodeKeySkip op
  | _ => decodeIo op  -- 0xF, the one value left

/-- The Primary Dispatcher: matches 00E0 and 00EE whole and forwards every other value (R75). -/
def decode (op : Word) : Except DecodeReject Instr :=
  if op = 0x00E0#16 then .ok .cls
  else if op = 0x00EE#16 then .ok .ret
  else decodeExtended op

/-- Decoding from bytes as the memory holds them: the instruction and the bytes after it. -/
def decodeBytes : List Byte → Except DecodeReject (Instr × List Byte)
  | hi :: lo :: rest => (decode (joinBytes hi lo)).map fun i => (i, rest)
  | _ => .error .truncated

/-- What the decoder reads from an instruction of `nbits` bits with value `w`, numbered as spec/opcode_table.json
numbers them: one 16-bit word, laid out big-endian. -/
def decodeTableWord (nbits w : Nat) : Option Instr :=
  let op : Word := BitVec.ofNat 16 (w % 2 ^ nbits)
  match decodeBytes [highByte op, lowByte op] with
  | .ok (i, _) => some i
  | .error _ => none

/-! ## The encoder (30_encoding.md R73, R84) -/

/-- Format A, `h n n n`. -/
def formatA (h : BitVec 4) (nnn : Addr) : Word := h ++ nnn
/-- Formats XK and XS, `h x k k` (the selector byte of XS stands where the immediate of XK does). -/
def formatXK (h : BitVec 4) (x : RegIdx) (kk : Byte) : Word := h ++ x ++ kk
/-- Formats XY, XYS and XYN, `h x y n`. -/
def formatXYN (h : BitVec 4) (x y : RegIdx) (n : Nibble) : Word := h ++ x ++ y ++ n

/-- The word of an instruction. `SE Vx, Vy` and `SNE Vx, Vy` assemble with n = 0 (R84). -/
def encode : Instr → Word
  | .cls => 0x00E0#16
  | .ret => 0x00EE#16
  | .jp nnn => formatA 0x1#4 nnn
  | .call nnn => formatA 0x2#4 nnn
  | .seImm x kk => formatXK 0x3#4 x kk
  | .sneImm x kk => formatXK 0x4#4 x kk
  | .seReg x y => formatXYN 0x5#4 x y 0x0#4
  | .ldImm x kk => formatXK 0x6#4 x kk
  | .addImm x kk => formatXK 0x7#4 x kk
  | .ldReg x y => formatXYN 0x8#4 x y 0x0#4
  | .orReg x y => formatXYN 0x8#4 x y 0x1#4
  | .andReg x y => formatXYN 0x8#4 x y 0x2#4
  | .xorReg x y => formatXYN 0x8#4 x y 0x3#4
  | .addReg x y => formatXYN 0x8#4 x y 0x4#4
  | .subReg x y => formatXYN 0x8#4 x y 0x5#4
  | .shr x y => formatXYN 0x8#4 x y 0x6#4
  | .subn x y => formatXYN 0x8#4 x y 0x7#4
  | .shl x y => formatXYN 0x8#4 x y 0xE#4
  | .sneReg x y => formatXYN 0x9#4 x y 0x0#4
  | .ldI nnn => formatA 0xA#4 nnn
  | .jpV0 nnn => formatA 0xB#4 nnn
  | .rnd x kk => formatXK 0xC#4 x kk
  | .drw x y n => formatXYN 0xD#4 x y n
  | .skp x => formatXK 0xE#4 x 0x9E#8
  | .sknp x => formatXK 0xE#4 x 0xA1#8
  | .ldVxDt x => formatXK 0xF#4 x 0x07#8
  | .ldVxK x => formatXK 0xF#4 x 0x0A#8
  | .ldDtVx x => formatXK 0xF#4 x 0x15#8
  | .ldStVx x => formatXK 0xF#4 x 0x18#8
  | .addI x => formatXK 0xF#4 x 0x1E#8
  | .ldF x => formatXK 0xF#4 x 0x29#8
  | .ldB x => formatXK 0xF#4 x 0x33#8
  | .ldIVx x => formatXK 0xF#4 x 0x55#8
  | .ldVxI x => formatXK 0xF#4 x 0x65#8

/-- The two bytes of an instruction as the memory holds them, the high byte first (20_memory.md R53). -/
def encodeBytes (i : Instr) : List Byte := [highByte (encode i), lowByte (encode i)]

/-- The word an instruction's opcode assembles back to: the bits groups 5 and 9 do not examine (30_encoding.md R73,
R79) read as 0, every other word is its own. -/
def canonicalWord (op : Word) : Word :=
  if opHigh op = 0x5#4 ∨ opHigh op = 0x9#4 then op &&& 0xFFF0#16 else op

end Sys2Proof
end

