-- ==== Sys2Proof/Machine/State.lean ====
section
/-! DEFINITION. The state of the core as plain data (10_state.md), the reasons it stops, and the state after reset
(70_reset_and_hazards.md R230, R231). -/

namespace Sys2Proof.Machine

/-- The fatal conditions with the info they record (60_exceptions.md R201). An instruction, the fetch or `load`
raises one by entering `RUN = Faulted(code, info)`, a next state (R200, R203); `step` answers it from such a state,
in which the core takes no step any more (R202). Stopping there is what the spec says; where it decides what the
source leaves to a collaborator (`memRange`), stopping is safe. -/
inductive Fault where
  /-- Code 1, raised by CALL when SP = `STACK_DEPTH`: instruction address, opcode, SP. Safe. -/
  | stackOverflow (instrAddr opcode : Word) (sp : Nat)
  /-- Code 2, raised by RET when SP = 0: instruction address, opcode. Safe. -/
  | stackUnderflow (instrAddr opcode : Word)
  /-- Code 3, raised by the fetch, DRW, LD B, LD [I] and LD Vx, [I] on an access at 0x1000 or above: the lowest
  out-of-range address, the instruction address, the opcode (absent for a fetch). Safe. -/
  | memRange (addr : Nat) (instrAddr : Word) (opcode : Option Word)
  /-- Code 4, raised by an unrecognised opcode under `UNKNOWN_OPCODE_POLICY = fault`: instruction address, opcode.
  Safe. -/
  | unknownOpcode (instrAddr opcode : Word)
  /-- Code 5, raised by `load` on an image too large: its size. Safe. -/
  | loadTooLarge (size : Nat)
deriving DecidableEq, Repr

/-- Why an instruction has no meaning. No arm of `exec` uses it: every instruction of the table has its meaning. -/
inductive Refusal where
  /-- Raised by `exec` for an instruction still without a meaning (none is); safe. -/
  | notModelled (mnemonic : String)
deriving DecidableEq, Repr

/-- `RUN`, the run state (10_state.md R30). -/
inductive Run where
  | running
  | awaitingKey (x : RegIdx)
  | faulted (f : Fault)
deriving DecidableEq, Repr

/-- Whether `load` has happened (70_reset_and_hazards.md R233: no fetch before `load`; log 7). -/
inductive Boot where
  | waiting                      -- reset, no image offered yet
  | offered (image : List Byte)  -- the host has called `load(image)`
  | loaded                       -- the image is in memory
deriving DecidableEq, Repr

/-- A call to a collaborator (60_exceptions.md R211). Memory and the call stack are state of the core. -/
inductive Call where
  | screenClear
  | screenDraw (x y : Byte) (bytes : List Byte) (height : Nat)
  | keyIsDown (k : Byte)
  | keyMap (raw : Nat)
  | rndNext
  | hostNextKeyDown
deriving DecidableEq, Repr

/-- The answers the environment will give, each list in the order it gives them; the model's own fields. An empty
list leaves the answer to a free value of Config (log 5). -/
structure Inputs where
  random : List Byte
  keyDown : List Bool
  collision : List Bool
  /-- A `none` says that no key-down event has come by then (log 6). -/
  keyEvents : List (Option Nat)
  turns : List Agent
deriving DecidableEq, Repr

/-- Memory: bytes by address, rising, none equal to what an unlisted address reads as. -/
abbrev Memory := List Host.Cell

/-- Call-stack storage: entries by index, rising, none equal to 0, which an unlisted entry reads as. -/
abbrev StackStore := List (Nat × Word)

/-- The state of the core. Registers are read and written through the accessors of Machine/Ops.lean. -/
structure State where
  /-- The parameters (00_scope.md R6); no step writes them (log 1). -/
  cfg : Config
  /-- V0-VF (10_state.md R20). -/
  v : Vector Byte 16
  /-- The index register I (R25). -/
  i : Word
  /-- The program counter (R26). -/
  pc : Word
  /-- The delay timer (R28). -/
  dt : Byte
  /-- The sound timer (R28). -/
  st : Byte
  /-- `STACK[0..STACK_DEPTH-1]` (R29). -/
  stack : StackStore
  /-- `SP`, the number of entries held (R29). -/
  sp : Nat
  /-- `RUN` (R30). -/
  run : Run
  /-- M (R33). -/
  mem : Memory
  /-- Whether `load` has happened (70_reset_and_hazards.md R233; log 7). -/
  boot : Boot
  /-- The collaborator calls made, newest first (60_exceptions.md R211; log 4). -/
  calls : List Call
  /-- The model's own: the answers to come (log 5). -/
  inputs : Inputs
  /-- The model's own: how many answers were drawn, the argument of the free values (log 5). -/
  drawn : Nat
deriving DecidableEq, Repr

/-- No answers listed: each is then a free value of Config (DESIGN CHOICE, log 5). -/
def Inputs.none : Inputs := ⟨[], [], [], [], []⟩

/-- Reset with the parameters `c` (70_reset_and_hazards.md R230): everything zero, the font in memory (it is what
an unlisted address below 80 reads as), nothing loaded, and the one call `Screen.clear()`. -/
def State.resetWith (c : Config) : State where
  cfg := c
  v := Vector.replicate 16 0#8
  i := 0#16
  pc := 0#16
  dt := 0#8
  st := 0#8
  stack := []
  sp := 0
  run := .running
  mem := []
  boot := .waiting
  calls := [.screenClear]
  inputs := Inputs.none
  drawn := 0

/-- The machine right after reset, with the parameters of R6. -/
def State.reset : State := State.resetWith Config.reference

end Sys2Proof.Machine
end

