-- ==== Sys2Proof/Machine/Memory.lean ====
section
/-! DEFINITION. Sparse storage in one canonical form, and the memory and call-stack storage as two uses of it. An
unlisted key reads as its reset value: FONT_DATA and zeros in memory (70_reset_and_hazards.md R230), zero in the
call stack (10_state.md R29). -/

namespace Sys2Proof.Machine

section
variable {α : Type}

/-- The value at key `a`; `d` gives what an unlisted key reads as. -/
def Sparse.get (d : Nat → α) : List (Nat × α) → Nat → α
  | [], a => d a
  | (k, w) :: m, a => if a = k then w else Sparse.get d m a

/-- Writing `w` at key `a`, keeping the canonical form: keys rising, no entry equal to what an unlisted key reads
as. -/
def Sparse.set [DecidableEq α] (d : Nat → α) : List (Nat × α) → Nat → α → List (Nat × α)
  | [], a, w => if w = d a then [] else [(a, w)]
  | (k, u) :: m, a, w =>
    if a < k then (if w = d a then (k, u) :: m else (a, w) :: (k, u) :: m)
    else if a = k then (if w = d a then m else (a, w) :: m)
    else (k, u) :: Sparse.set d m a w

/-- The canonical form, with every key at least `lo` and less than `hi`. -/
def Sparse.wf [DecidableEq α] (d : Nat → α) (lo hi : Nat) : List (Nat × α) → Bool
  | [] => true
  | (k, w) :: m => decide (lo ≤ k) && decide (k < hi) && decide (w ≠ d k) && Sparse.wf d (k + 1) hi m

end

/-- What an address nothing has written reads as: the font at 0x000-0x04F, 0 elsewhere (70_reset_and_hazards.md
R230, 20_memory.md R57). -/
def Memory.unlisted (c : Config) (a : Nat) : Byte :=
  if h : a < fontSize then c.fontData[a] else 0#8

/-- The canonical form of the memory, every listed address in 0x000-0xFFF (20_memory.md R50). -/
def Memory.wf (c : Config) (m : Memory) : Bool := Sparse.wf (Memory.unlisted c) 0 memSize m

/-- What a call-stack entry nothing has written reads as (10_state.md R29: "every entry is 0"). -/
def StackStore.unlisted (_ : Nat) : Word := 0#16

/-- The canonical form of the call-stack storage, every listed index below `STACK_DEPTH` (10_state.md R29). -/
def StackStore.wf (c : Config) (m : StackStore) : Bool := Sparse.wf StackStore.unlisted 0 c.stackDepth m

end Sys2Proof.Machine
end

