-- ==== Sys2Proof/Machine/Ops.lean ====
section
/-! DEFINITION. The named operations over the state: registers, memory, the call-stack controller, the skip
resolver, the collaborator calls, entering the fault state, the key-event step, the timer tick and `load`. -/

namespace Sys2Proof.Machine

/-- What a step answers. -/
abbrev Result := Host.Outcome State Fault Refusal

/-! ## Registers (10_state.md R20-R28) -/

/-- Reading `V[x]`. -/
def State.V (s : State) (x : RegIdx) : Byte := s.v[x.toNat]

/-- `V[x] <- b`. -/
def State.setV (s : State) (x : RegIdx) (b : Byte) : State := { s with v := s.v.set x.toNat b }

/-- `I <- w`. -/
def State.setI (s : State) (w : Word) : State := { s with i := w }

/-- `PC <- w`. -/
def State.setPc (s : State) (w : Word) : State := { s with pc := w }

/-- `DT <- b`. -/
def State.setDt (s : State) (b : Byte) : State := { s with dt := b }

/-- `ST <- b`. -/
def State.setSt (s : State) (b : Byte) : State := { s with st := b }

/-- `RUN <- r`. -/
def State.setRun (s : State) (r : Run) : State := { s with run := r }

/-! ## Memory (20_memory.md R50-R58) -/

/-- `MemRead(a, 1)` for an address that exists. -/
def State.readByte (s : State) (a : Nat) : Byte := Sparse.get (Memory.unlisted s.cfg) s.mem a

/-- `MemWrite(a, 1, b)` for an address that exists. -/
def State.writeByte (s : State) (a : Nat) (b : Byte) : State :=
  { s with mem := Sparse.set (Memory.unlisted s.cfg) s.mem a b }

/-- The lowest of the addresses `base, ..., base + len - 1` that does not exist, if one does not (R52, R55). Addresses
are exact integers. -/
def firstOutOfRange (base len : Nat) : Option Nat :=
  if len = 0 ∨ base + len ≤ memSize then none else some (max base memSize)

/-- The bytes at `base, ..., base + len - 1`, in ascending order (R55). -/
def State.readBytes (s : State) (base : Nat) : Nat → List Byte
  | 0 => []
  | len + 1 => s.readByte base :: s.readBytes (base + 1) len

/-- Writing bytes at `base` and up, in ascending order (R55). -/
def State.writeBytes (s : State) (base : Nat) : List Byte → State
  | [] => s
  | b :: bs => (s.writeByte base b).writeBytes (base + 1) bs

/-! ## Entering the fault state (60_exceptions.md R200-R203)

The one exception entry of the core: no register is saved and no vector is taken (R207); `RUN` becomes
`Faulted(code, info)` and nothing else changes (R203). There is no return from it (R202, R207). -/

/-- `raise F(info)` (00_scope.md R10). -/
def State.raise (s : State) (f : Fault) : State := s.setRun (.faulted f)

/-- The instruction address during execution: PC - 2, reduced mod 65536 (60_exceptions.md R201). -/
def State.instrAddr (s : State) : Word := s.pc - 2#16

/-- The number of a fault code (60_exceptions.md R201). -/
def Fault.code : Fault → Nat
  | .stackOverflow _ _ _ => 1
  | .stackUnderflow _ _ => 2
  | .memRange _ _ _ => 3
  | .unknownOpcode _ _ => 4
  | .loadTooLarge _ => 5

/-- Running `k` when every address of an instruction's accesses exists, and otherwise raising `MEM_RANGE` with the
lowest that does not, none of them performed (20_memory.md R55). -/
def State.withRange (s : State) (i : Instr) (base len : Nat) (k : State) : State :=
  match firstOutOfRange base len with
  | none => k
  | some a => s.raise (.memRange a s.instrAddr (some (encode i)))

/-- What an unrecognised opcode does, by `UNKNOWN_OPCODE_POLICY` (30_encoding.md R81). -/
def State.unrecognised (s : State) (op : Word) : State :=
  match s.cfg.unknownOpcodePolicy with
  | .ignore => s
  | .fault => s.raise (.unknownOpcode s.instrAddr op)

/-! ## Call-stack controller (41_extended.md R110, R111) -/

/-- `STACK[j]`. -/
def State.stackEntry (s : State) (j : Nat) : Word := Sparse.get StackStore.unlisted s.stack j

/-- `Push(w)`; `none` where it raises `STACK_OVERFLOW`. -/
def State.push (s : State) (w : Word) : Option State :=
  if s.sp = s.cfg.stackDepth then none
  else some { s with stack := Sparse.set StackStore.unlisted s.stack s.sp w, sp := s.sp + 1 }

/-- `Pop()`, the value and the state after it; `none` where it raises `STACK_UNDERFLOW`. The entry stays in the
storage. -/
def State.pop (s : State) : Option (Word × State) :=
  match s.sp with
  | 0 => none
  | n + 1 => some (s.stackEntry n, { s with sp := n })

/-! ## Skip resolver (41_extended.md R112) -/

/-- `if b: Skip()`. -/
def State.skipIf (s : State) (b : Bool) : State := if b then s.setPc (s.pc + 2#16) else s

/-! ## Collaborator calls (60_exceptions.md R211)

Each call is recorded, draws one answer and counts it. The answer is the head of its list, or where the list is
empty the free value of Config at the count (log 5). -/

/-- Recording a call. -/
def State.record (s : State) (c : Call) : State := { s with calls := c :: s.calls }

/-- `Screen.clear()`. -/
def State.clearScreen (s : State) : State := s.record .screenClear

/-- The answer `Rnd.next()` gives now. -/
def State.randomAnswer (s : State) : Byte := s.inputs.random.headD (Config.freeRandom s.drawn)

/-- The state after `Rnd.next()`. -/
def State.afterRandom (s : State) : State :=
  { s.record .rndNext with inputs := { s.inputs with random := s.inputs.random.tail }, drawn := s.drawn + 1 }

/-- The answer `Key.isDown(k)` gives now. -/
def State.keyDownAnswer (s : State) (k : Byte) : Bool := s.inputs.keyDown.headD (Config.freeKeyDown s.drawn k)

/-- The state after `Key.isDown(k)`. -/
def State.afterKeyDown (s : State) (k : Byte) : State :=
  { s.record (.keyIsDown k) with inputs := { s.inputs with keyDown := s.inputs.keyDown.tail }, drawn := s.drawn + 1 }

/-- The collision answer `Screen.draw` gives now. -/
def State.collisionAnswer (s : State) : Bool := s.inputs.collision.headD (Config.freeCollision s.drawn)

/-- The state after `Screen.draw(x, y, bytes, h)`. -/
def State.afterDraw (s : State) (x y : Byte) (bytes : List Byte) (h : Nat) : State :=
  { s.record (.screenDraw x y bytes h) with
    inputs := { s.inputs with collision := s.inputs.collision.tail }, drawn := s.drawn + 1 }

/-- The raw code `Host.nextKeyDown()` delivers now, or `none` while the call is blocked (log 6). -/
def State.keyEventAnswer (s : State) : Option Nat := s.inputs.keyEvents.headD (Config.freeKeyEvent s.drawn)

/-- The state after that answer was drawn, whatever it was. -/
def State.afterKeyPoll (s : State) : State :=
  { s with inputs := { s.inputs with keyEvents := s.inputs.keyEvents.tail }, drawn := s.drawn + 1 }

/-- The state after one event was taken from the host stream and mapped. -/
def State.afterKeyEvent (s : State) (raw : Nat) : State :=
  (s.afterKeyPoll.record .hostNextKeyDown).record (.keyMap raw)

/-- `Key.map(raw)`; `none` is NotFound. -/
def Config.mapKey (c : Config) (raw : Nat) : Option KeyIdx := c.keyMap.lookup raw

/-- `bool01(b)` (00_scope.md R10). -/
def bool01 (b : Bool) : Byte := if b then 1#8 else 0#8

/-! ## The key-event step (43_io.md R173) -/

/-- The core's only step while `RUN = AwaitingKey(x)`: the next key-down event either maps to a key index, which
resolves the wait, or does not, and the wait goes on. While no event comes nothing but the model's own fields
changes. -/
def State.keyEvent (s : State) (x : RegIdx) : State :=
  match s.keyEventAnswer with
  | none => s.afterKeyPoll
  | some raw =>
    match Config.mapKey s.cfg raw with
    | none => s.afterKeyEvent raw
    | some k => ((s.afterKeyEvent raw).setV x (k.setWidth 8)).setRun .running

/-! ## The timer agent (60_exceptions.md R205, R209) -/

/-- A timer decremented, stopping at 0. -/
def tickByte (b : Byte) : Byte := if b = 0#8 then 0#8 else b - 1#8

/-- One tick. -/
def State.tick (s : State) : State := { s with dt := tickByte s.dt, st := tickByte s.st }

/-- Whether a tick is enabled (R209). -/
def State.tickEnabled (s : State) : Bool :=
  match s.run with
  | .running => true
  | .awaitingKey _ => s.cfg.tickDuringKeyWait
  | .faulted _ => false

/-- Which agent moves next: free where a tick is enabled (R205), and the core where it is not (log 3). -/
def State.nextTurn (s : State) : Agent :=
  if s.tickEnabled then s.inputs.turns.headD (Config.freeTurn s.drawn) else .core

/-- The state after that choice was made. -/
def State.afterTurn (s : State) : State :=
  if s.tickEnabled then
    { s with inputs := { s.inputs with turns := s.inputs.turns.tail }, drawn := s.drawn + 1 }
  else s

/-! ## Boot (70_reset_and_hazards.md R232, R233) -/

/-- `load(image)`: an image too large is fatal and nothing of it is written; any other is written at 0x200 and PC
becomes 0x200. -/
def State.load (s : State) (image : List Byte) : State :=
  if image.length + progBase < memSize then
    { (s.writeBytes progBase image).setPc (BitVec.ofNat 16 progBase) with boot := .loaded }
  else s.raise (.loadTooLarge image.length)

/-! ## Placing one instruction where the next fetch reads it (for `State.withFetchWord`) -/

/-- The state in which the very next step fetches the word `op`: where no program is loaded yet, `load` of the one
word at 0x200; the core running, and its turn. -/
def State.placeWord (s : State) (op : Word) : State :=
  let ready : State := match s.boot with
    | .loaded => s
    | _ => { s.setPc (BitVec.ofNat 16 progBase) with boot := .loaded }
  let stored := ready.writeBytes ready.pc.toNat [highByte op, lowByte op]
  { stored.setRun .running with inputs := { stored.inputs with turns := .core :: stored.inputs.turns } }

end Sys2Proof.Machine
end

