-- ==== Sys2Proof/Machine/Operands.lean ====
section
/-! DEFINITION. The operand forms of the instructions (30_encoding.md R72): an address widened to 16 bits, the
bytes an instruction moves through I, and the registers V0..Vx. -/

namespace Sys2Proof.Machine

/-- `zext_16(nnn)` (30_encoding.md R72). -/
def zextAddr (nnn : Addr) : Word := nnn.setWidth 16

/-- `zext_16(b)`, a register value widened for 16-bit arithmetic (43_io.md R176, 41_extended.md R123). -/
def zextByte (b : Byte) : Word := b.setWidth 16

/-- I as the exact integer address of the first byte of an I-relative access (20_memory.md R52, R55). -/
def State.baseAddr (s : State) : Nat := s.i.toNat

/-- How many bytes `V0..Vx` are (43_io.md R179, R180: "inclusive of x"). -/
def blockLen (x : RegIdx) : Nat := x.toNat + 1

/-- The values of `V[k], V[k+1], ...`, `len` of them. -/
def State.regsFrom (s : State) (k : Nat) : Nat → List Byte
  | 0 => []
  | len + 1 => s.V (BitVec.ofNat 4 k) :: s.regsFrom (k + 1) len

/-- Writing values into `V[k], V[k+1], ...` in ascending order. -/
def State.loadRegsFrom (s : State) (k : Nat) : List Byte → State
  | [] => s
  | b :: bs => (s.setV (BitVec.ofNat 4 k) b).loadRegsFrom (k + 1) bs

/-- The decimal digits of a byte, hundreds first (43_io.md R178). -/
def bcdDigits (b : Byte) : List Byte := [b / 100#8, b / 10#8 % 10#8, b % 10#8]

/-- `GLYPH_BYTES` (00_scope.md R6). -/
def glyphBytes : Word := 5#16

/-- The address of the glyph of a digit, the register value not reduced to its low nibble (43_io.md R177). -/
def glyphAddr (b : Byte) : Word := zextByte b * glyphBytes

end Sys2Proof.Machine
end

