-- ==== Sys2Proof/Machine/Flags.lean ====
section
/-! DEFINITION. The flag and result functions of the ALU group (42_alu.md R155-R159, R161), 8-bit with
wrap-around, and the one way a flag-writing operation reads its operands and writes VF and V[x] (R150). Each
function takes `a` = V[x] and `b` = V[y]. -/

namespace Sys2Proof.Machine

/-- VF of ADD: 1 if the widened sum exceeds 255 (R155). -/
def addFlag (a b : Byte) : Byte := bool01 (decide (255 < a.toNat + b.toNat))
/-- The result of ADD: the sum mod 256 (R155). -/
def addResult (a b : Byte) : Byte := a + b

/-- VF of SUB: 1 if a > b, strictly (R156). -/
def subFlag (a b : Byte) : Byte := bool01 (decide (b.toNat < a.toNat))
/-- The result of SUB: (a - b) mod 256 (R156). -/
def subResult (a b : Byte) : Byte := a - b

/-- VF of SHR: the least significant bit before the shift (R157). -/
def shrFlag (a _b : Byte) : Byte := a &&& 1#8
/-- The result of SHR: a / 2, unsigned; b is not read (R157). -/
def shrResult (a _b : Byte) : Byte := a / 2#8

/-- VF of SUBN: 1 if b > a, strictly (R158). -/
def subnFlag (a b : Byte) : Byte := bool01 (decide (a.toNat < b.toNat))
/-- The result of SUBN: (b - a) mod 256 (R158). -/
def subnResult (a b : Byte) : Byte := b - a

/-- VF of SHL: 0x80 if bit 7 is set and 0 if not, NOT normalised to 1 (R159). -/
def shlFlag (a _b : Byte) : Byte := a &&& 0x80#8
/-- The result of SHL: (a * 2) mod 256; b is not read (R159). -/
def shlResult (a _b : Byte) : Byte := a * 2#8

/-- A flag-writing operation of group 8 (R150): VF first, then V[x]. Under `latched` both values come from the
registers before the instruction; under `sequential` the result is computed from the registers as they stand once
VF is written. -/
def State.aluFlagged (s : State) (flag result : Byte → Byte → Byte) (x y : RegIdx) : State :=
  let s1 := s.setV regF (flag (s.V x) (s.V y))
  match s.cfg.aluAliasMode with
  | .latched => s1.setV x (result (s.V x) (s.V y))
  | .sequential => s1.setV x (result (s1.V x) (s1.V y))

end Sys2Proof.Machine
end

