-- ==== Sys2Proof/Machine/Alu.lean ====
section
/-! DEFINITION. The instructions of the ALU Sub-dispatcher, group 8 (42_alu.md). -/

namespace Sys2Proof.Machine

/-- 8xy0 LD Vx, Vy (R151). -/
def execLdReg (x y : RegIdx) (s : State) : Result := .next (s.setV x (s.V y))

/-- 8xy1 OR Vx, Vy (R152). -/
def execOrReg (x y : RegIdx) (s : State) : Result := .next (s.setV x (s.V x ||| s.V y))

/-- 8xy2 AND Vx, Vy (R153). -/
def execAndReg (x y : RegIdx) (s : State) : Result := .next (s.setV x (s.V x &&& s.V y))

/-- 8xy3 XOR Vx, Vy (R154). -/
def execXorReg (x y : RegIdx) (s : State) : Result := .next (s.setV x (s.V x ^^^ s.V y))

/-- 8xy4 ADD Vx, Vy (R155). -/
def execAddReg (x y : RegIdx) (s : State) : Result := .next (s.aluFlagged addFlag addResult x y)

/-- 8xy5 SUB Vx, Vy (R156). -/
def execSubReg (x y : RegIdx) (s : State) : Result := .next (s.aluFlagged subFlag subResult x y)

/-- 8xy6 SHR Vx (R157). -/
def execShr (x y : RegIdx) (s : State) : Result := .next (s.aluFlagged shrFlag shrResult x y)

/-- 8xy7 SUBN Vx, Vy (R158). -/
def execSubn (x y : RegIdx) (s : State) : Result := .next (s.aluFlagged subnFlag subnResult x y)

/-- 8xyE SHL Vx (R159). -/
def execShl (x y : RegIdx) (s : State) : Result := .next (s.aluFlagged shlFlag shlResult x y)

end Sys2Proof.Machine
end

