-- ==== Sys2Proof/Machine/Extended.lean ====
section
/-! DEFINITION. The instructions of the Extended Dispatcher (41_extended.md). -/

namespace Sys2Proof.Machine

/-- 1nnn JP nnn (R113). -/
def execJp (nnn : Addr) (s : State) : Result := .next (s.setPc (zextAddr nnn))

/-- 2nnn CALL nnn (R114): the pushed PC is the CALL's address plus 2. -/
def execCall (nnn : Addr) (s : State) : Result :=
  match s.push s.pc with
  | none => .next (s.raise (.stackOverflow s.instrAddr (encode (.call nnn)) s.sp))
  | some s' => .next (s'.setPc (zextAddr nnn))

/-- 3xkk SE Vx, kk (R115). -/
def execSeImm (x : RegIdx) (kk : Byte) (s : State) : Result := .next (s.skipIf (s.V x == kk))

/-- 4xkk SNE Vx, kk (R116). -/
def execSneImm (x : RegIdx) (kk : Byte) (s : State) : Result := .next (s.skipIf (s.V x != kk))

/-- 5xy- SE Vx, Vy (R117). -/
def execSeReg (x y : RegIdx) (s : State) : Result := .next (s.skipIf (s.V x == s.V y))

/-- 6xkk LD Vx, kk (R118). -/
def execLdImm (x : RegIdx) (kk : Byte) (s : State) : Result := .next (s.setV x kk)

/-- 7xkk ADD Vx, kk (R119): 8-bit wrap-around, no carry flag. -/
def execAddImm (x : RegIdx) (kk : Byte) (s : State) : Result := .next (s.setV x (addResult (s.V x) kk))

/-- 9xy- SNE Vx, Vy (R121). -/
def execSneReg (x y : RegIdx) (s : State) : Result := .next (s.skipIf (s.V x != s.V y))

/-- Annn LD I, nnn (R122). -/
def execLdI (nnn : Addr) (s : State) : Result := .next (s.setI (zextAddr nnn))

/-- Bnnn JP V0, nnn (R123): the offset register is always V0. -/
def execJpV0 (nnn : Addr) (s : State) : Result := .next (s.setPc (zextAddr nnn + zextByte (s.V 0x0#4)))

/-- Cxkk RND Vx, kk (R124). -/
def execRnd (x : RegIdx) (kk : Byte) (s : State) : Result := .next (s.afterRandom.setV x (s.randomAnswer &&& kk))

/-- The draw of DRW once its addresses are known to exist: the bytes are read, the screen is called with the
register values as they are, and VF takes the collision answer (R125). -/
def State.drawSprite (s : State) (x y : RegIdx) (n : Nibble) : State :=
  (s.afterDraw (s.V x) (s.V y) (s.readBytes s.baseAddr n.toNat) n.toNat).setV regF (bool01 s.collisionAnswer)

/-- Dxyn DRW Vx, Vy, n (R125). -/
def execDrw (x y : RegIdx) (n : Nibble) (s : State) : Result :=
  .next (s.withRange (.drw x y n) s.baseAddr n.toNat (s.drawSprite x y n))

/-- Ex9E SKP Vx (R126): V[x] is passed as its full 8-bit value. -/
def execSkp (x : RegIdx) (s : State) : Result :=
  .next ((s.afterKeyDown (s.V x)).skipIf (s.keyDownAnswer (s.V x)))

/-- ExA1 SKNP Vx (R127): "up" is "not down", one query. -/
def execSknp (x : RegIdx) (s : State) : Result :=
  .next ((s.afterKeyDown (s.V x)).skipIf (!s.keyDownAnswer (s.V x)))

end Sys2Proof.Machine
end

