-- ==== Sys2Proof/Machine/Io.lean ====
section
/-! DEFINITION. The instructions of the I/O Sub-dispatcher, group F (43_io.md). -/

namespace Sys2Proof.Machine

/-- Fx07 LD Vx, DT (R171). -/
def execLdVxDt (x : RegIdx) (s : State) : Result := .next (s.setV x s.dt)

/-- Fx0A LD Vx, K (R172): enters the wait; the rest is the key-event step. -/
def execLdVxK (x : RegIdx) (s : State) : Result := .next (s.setRun (.awaitingKey x))

/-- Fx15 LD DT, Vx (R174). -/
def execLdDtVx (x : RegIdx) (s : State) : Result := .next (s.setDt (s.V x))

/-- Fx18 LD ST, Vx (R175). -/
def execLdStVx (x : RegIdx) (s : State) : Result := .next (s.setSt (s.V x))

/-- Fx1E ADD I, Vx (R176): mod 65536, no flag. -/
def execAddI (x : RegIdx) (s : State) : Result := .next (s.setI (s.i + zextByte (s.V x)))

/-- Fx29 LD F, Vx (R177). -/
def execLdF (x : RegIdx) (s : State) : Result := .next (s.setI (glyphAddr (s.V x)))

/-- Fx33 LD B, Vx (R178). -/
def execLdB (x : RegIdx) (s : State) : Result :=
  .next (s.withRange (.ldB x) s.baseAddr 3 (s.writeBytes s.baseAddr (bcdDigits (s.V x))))

/-- Fx55 LD [I], Vx (R179): V0 through Vx inclusive; I is not changed. -/
def execLdIVx (x : RegIdx) (s : State) : Result :=
  .next (s.withRange (.ldIVx x) s.baseAddr (blockLen x) (s.writeBytes s.baseAddr (s.regsFrom 0 (blockLen x))))

/-- Fx65 LD Vx, [I] (R180): V0 through Vx inclusive; I is not changed. -/
def execLdVxI (x : RegIdx) (s : State) : Result :=
  .next (s.withRange (.ldVxI x) s.baseAddr (blockLen x) (s.loadRegsFrom 0 (s.readBytes s.baseAddr (blockLen x))))

end Sys2Proof.Machine
end

