-- ==== Sys2Proof/Machine/Primary.lean ====
section
/-! DEFINITION. The instructions of the Primary Dispatcher (40_primary.md). Every meaning runs after the fetch has
added 2 to PC (00_scope.md R11, 20_memory.md R65). -/

namespace Sys2Proof.Machine

/-- 00E0 CLS (R100): one call of the screen, and no other effect. -/
def execCls (s : State) : Result := .next s.clearScreen

/-- 00EE RET (R101): `PC <- Pop()`. -/
def execRet (s : State) : Result :=
  match s.pop with
  | none => .next (s.raise (.stackUnderflow s.instrAddr (encode .ret)))
  | some (w, s') => .next (s'.setPc w)

end Sys2Proof.Machine
end

