-- ==== Sys2Proof/Machine/Cycle.lean ====
section
/-! DEFINITION. The core's step: the fetch, `execute(op)`, and the choice between an instruction step and a
key-event step (20_memory.md R60, R65). -/

namespace Sys2Proof.Machine

/-- The word two addresses hold, big-endian (20_memory.md R53). -/
def State.wordAt (s : State) (a : Nat) : Word := joinBytes (s.readByte a) (s.readByte (a + 1))

/-- `execute(op)` (30_encoding.md R74): the instruction the decoder gives, or the unrecognised-opcode policy. -/
def execute (op : Word) (s : State) : Result :=
  match decode op with
  | .ok i => exec i s
  | .error _ => .next (s.unrecognised op)

/-- The baseline increment (20_memory.md R65). -/
def State.advance (s : State) : State := s.setPc (s.pc + 2#16)

/-- The instruction step (20_memory.md R65): fetch, add 2 to PC, execute. A fetch out of range raises `MEM_RANGE`
with no opcode and leaves PC where it was (60_exceptions.md R203). -/
def instrStep (s : State) : Result :=
  match firstOutOfRange s.pc.toNat 2 with
  | some a => .next (s.raise (.memRange a s.pc none))
  | none => execute (s.wordAt s.pc.toNat) s.advance

/-- The core's step, by its run state (20_memory.md R60); a faulted core takes none (60_exceptions.md R202). -/
def coreStep (s : State) : Result :=
  match s.run with
  | .running => instrStep s
  | .awaitingKey x => .next (s.keyEvent x)
  | .faulted f => .fault f

/-- The step of whichever agent moves next, once a program is loaded (20_memory.md R60, 60_exceptions.md R205). -/
def agentStep (s : State) : Result :=
  match s.nextTurn with
  | .core => coreStep s.afterTurn
  | .timer => .next s.afterTurn.tick

/-- One step of the machine: none from a faulted state (60_exceptions.md R202); before `load` only the load
(70_reset_and_hazards.md R233), and while no image is offered the state stays as it is; then the agents. -/
def machineStep (s : State) : Result :=
  match s.run with
  | .faulted f => .fault f
  | _ =>
    match s.boot with
    | .waiting => .next s
    | .offered image => .next (s.load image)
    | .loaded => agentStep s

end Sys2Proof.Machine
end

