-- ==== Sys2Proof/Machine/Step.lean ====
section
/-! DEFINITION. The step of the machine, and the state in which it fetches a given word next. -/

namespace Sys2Proof.Machine

/-- One step of the machine (Machine/Cycle.lean). -/
def step (s : State) : Host.Outcome State Fault Refusal := machineStep s

/-- `s` with the word `w` of `nbits` bits stored where the next fetch reads it, so that the very next step fetches
and runs it (`State.placeWord`; log 7). -/
def State.withFetchWord (s : State) (nbits w : Nat) : State := s.placeWord (BitVec.ofNat 16 (w % 2 ^ nbits))

end Sys2Proof.Machine
end

