-- ==== Sys2Proof/Safety.lean ====
section
/-! DEFINITION. The vocabulary of claims: the invariant every step keeps, a machine that has not faulted, the normal
end of a run, and the frames in which an instruction's effect is said. -/

namespace Sys2Proof.Machine

/-- What every reachable state satisfies: the parameters are legal, memory and call-stack storage are canonical and
within their bounds (20_memory.md R50, 10_state.md R29), and `SP` is in 0..`STACK_DEPTH` (10_state.md R29). -/
structure State.Inv (s : State) : Prop where
  cfg : Config.wf s.cfg = true
  mem : Memory.wf s.cfg s.mem = true
  stack : StackStore.wf s.cfg s.stack = true
  sp : s.sp ≤ s.cfg.stackDepth

/-- A safe state: no fatal condition has occurred (60_exceptions.md R200). -/
def State.NotFaulted (s : State) : Prop := ∀ f, s.run ≠ .faulted f

/-- A normal end of a run (70_reset_and_hazards.md R240): `RUN = Running` and the two bytes at PC encode `JP PC`. -/
def State.Ended (s : State) : Prop :=
  s.run = .running ∧ s.pc.toNat + 2 ≤ memSize ∧ s.wordAt s.pc.toNat = encode (.jp (s.pc.setWidth 12))

/-- The word `w` is the encoding of `i`, both ways. -/
def HasWord (w : Word) (i : Instr) : Prop := encode i = w ∧ decode w = .ok i

/-- `t` differs from `s` at most in general registers for which `R` holds: every other register, I, PC, the timers,
the call stack, RUN, memory and the rest are as before. -/
def OnlyRegs (R : RegIdx → Prop) (s t : State) : Prop :=
  (∀ j, ¬ R j → t.V j = s.V j) ∧ t = { s with v := t.v }

/-- `t` differs from `s` at most in the bytes of memory at `base, ..., base + len - 1`. -/
def OnlyBytes (base len : Nat) (s t : State) : Prop :=
  (∀ a, a < base ∨ base + len ≤ a → t.readByte a = s.readByte a) ∧ t = { s with mem := t.mem }

/-- `t` differs from `s` at most in the call stack and PC, and no stack entry but entry `k` differs. -/
def OnlyStackEntryAndPc (k : Nat) (s t : State) : Prop :=
  (∀ j, j ≠ k → t.stackEntry j = s.stackEntry j) ∧ t = { s with stack := t.stack, sp := t.sp, pc := t.pc }

/-- The value `V[j]` has when a flag-writing operation of group 8 computes its result (42_alu.md R150): under
`sequential` VF already holds the flag. -/
def State.operandAfterFlag (s : State) (flag : Byte) (j : RegIdx) : Byte :=
  match s.cfg.aluAliasMode with
  | .latched => s.V j
  | .sequential => if j = regF then flag else s.V j

/-- The effect of a flag-writing operation of group 8 on `V[x]` with flag `flag` and result function `result` (42_alu.md
R150): V[x] takes the result, VF the flag unless x is F (where the result is what stays), and nothing else changes. -/
def AluEffect (s t : State) (x y : RegIdx) (flag : Byte) (result : Byte → Byte → Byte) : Prop :=
  t.V x = result (s.operandAfterFlag flag x) (s.operandAfterFlag flag y) ∧
  (x ≠ regF → t.V regF = flag) ∧ OnlyRegs (fun j => j = x ∨ j = regF) s t

end Sys2Proof.Machine

namespace Sys2Proof

/-- Whether an instruction that does not fault writes `V[j]` (10_state.md R22, the column "writes"). Fx0A writes nothing
when it executes: its V[x] is written by the key-event step (43_io.md R172, R173). -/
def Instr.writes : Instr → RegIdx → Bool
  | .cls, _ | .ret, _ | .jp _, _ | .call _, _ | .seImm _ _, _ | .sneImm _ _, _ | .seReg _ _, _ | .sneReg _ _, _
  | .ldI _, _ | .jpV0 _, _ | .skp _, _ | .sknp _, _ | .ldVxK _, _ | .ldDtVx _, _ | .ldStVx _, _ | .addI _, _
  | .ldF _, _ | .ldB _, _ | .ldIVx _, _ => false
  | .ldImm x _, j | .addImm x _, j | .rnd x _, j | .ldVxDt x, j => j == x
  | .ldReg x _, j | .orReg x _, j | .andReg x _, j | .xorReg x _, j => j == x
  | .addReg x _, j | .subReg x _, j | .shr x _, j | .subn x _, j | .shl x _, j => j == x || j == regF
  | .drw _ _ _, j => j == regF
  | .ldVxI x, j => decide (j.toNat ≤ x.toNat)

/-- Whether an instruction reads `V[j]` (10_state.md R22, the column "reads"). -/
def Instr.reads : Instr → RegIdx → Bool
  | .cls, _ | .ret, _ | .jp _, _ | .call _, _ | .ldImm _ _, _ | .ldI _, _ | .rnd _ _, _ | .ldVxDt _, _
  | .ldVxK _, _ | .ldVxI _, _ => false
  | .seImm x _, j | .sneImm x _, j | .addImm x _, j | .skp x, j | .sknp x, j | .shr x _, j | .shl x _, j => j == x
  | .ldDtVx x, j | .ldStVx x, j | .addI x, j | .ldF x, j | .ldB x, j => j == x
  | .seReg x y, j | .sneReg x y, j | .orReg x y, j | .andReg x y, j | .xorReg x y, j => j == x || j == y
  | .addReg x y, j | .subReg x y, j | .subn x y, j | .drw x y _, j => j == x || j == y
  | .ldReg _ y, j => j == y
  | .jpV0 _, j => j == 0x0#4
  | .ldIVx x, j => decide (j.toNat ≤ x.toNat)

/-- How many bytes an instruction accesses from I upward (20_memory.md R50, R55). -/
def Instr.accessLen : Instr → Nat
  | .drw _ _ n => n.toNat
  | .ldB _ => 3
  | .ldIVx x | .ldVxI x => x.toNat + 1
  | _ => 0

end Sys2Proof
end

