-- ==== Sys2Proof/Certificates/Slice0/Obligations.lean ====
section
/-! DEFINITION. The statements for the provers, one `def Obligations.<Name> : Prop` each, in the order of
OBLIGATIONS.json. The per-instruction statements speak of `exec`, which runs after the fetch has added 2 to PC
(20_memory.md R65); `StepRunsDecodedInstruction` carries them to a step. -/

open Sys2Proof Sys2Proof.Machine

/-! ## Encoding -/

/-- Decoding the encoding of an instruction gives it back, as a word and as the first two of any bytes, for every
operand (30_encoding.md R70-R74). -/
def Obligations.DecodeOfEncodeIsIdentity : Prop :=
  ∀ i : Instr, decode (encode i) = .ok i ∧
    ∀ rest : List Byte, decodeBytes (encodeBytes i ++ rest) = .ok (i, rest)

/-- A word that decodes is the encoding of what it decodes to, but for the low nibble that groups 5 and 9 do not
examine (30_encoding.md R73, R79), which the encoder writes as 0. For 8xy6 and 8xyE with y other than 0 the clause is
the model's choice and no rule of the spec: `Instr.shr` and `Instr.shl` carry the y field that R157 and R159 do not
read, where R84 assembles it as 0 (log 9, DESIGN CHOICE). -/
def Obligations.EncodeOfDecodeIsCanonical : Prop :=
  ∀ (op : Word) (i : Instr), decode op = .ok i → encode i = canonicalWord op ∧ decode (canonicalWord op) = .ok i

/-- The decoder gives an instruction exactly for the words some row of the opcode table matches (30_encoding.md R80,
R83). -/
def Obligations.DecoderAcceptsExactlyTableWords : Prop :=
  ∀ op : Word, (∃ i, decode op = .ok i) ↔ wellFormedWord op = true

/-- The four unrecognised spaces, each under its own name (30_encoding.md R80; the counts are not stated). -/
def Obligations.UnrecognisedSpacesByName : Prop :=
  ∀ op : Word,
    (decode op = .error .group0 ↔ opHigh op = 0x0#4 ∧ op ≠ 0x00E0#16 ∧ op ≠ 0x00EE#16) ∧
    (decode op = .error .group8 ↔
      opHigh op = 0x8#4 ∧ opN op ∈ [0x8#4, 0x9#4, 0xA#4, 0xB#4, 0xC#4, 0xD#4, 0xF#4]) ∧
    (decode op = .error .groupE ↔ opHigh op = 0xE#4 ∧ opKk op ∉ [0x9E#8, 0xA1#8]) ∧
    (decode op = .error .groupF ↔ opHigh op = 0xF#4 ∧
      opKk op ∉ [0x07#8, 0x0A#8, 0x15#8, 0x18#8, 0x1E#8, 0x29#8, 0x33#8, 0x55#8, 0x65#8]) ∧
    decode op ≠ .error .truncated

/-- Every word matches at most one of the 34 rows, and exactly one where it decodes (30_encoding.md R83). -/
def Obligations.EachWordMatchesAtMostOneRow : Prop :=
  opcodeTable.length = 34 ∧
  ∀ op : Word, (opcodeTable.filter fun r => r.matches op).length = if (decode op).isOk then 1 else 0

/-- Words written out bit by bit from the spec's encodings, one of every family, decode to what they stand for. -/
def Obligations.WrittenOutWordsDecode : Prop :=
  decode 0b0000000011100000#16 = .ok .cls ∧
  decode 0b0000000011101110#16 = .ok .ret ∧
  decode 0b0010001000010000#16 = .ok (.call 0x210#12) ∧
  decode 0b0101000100100001#16 = .ok (.seReg 0x1#4 0x2#4) ∧
  decode 0b1000101010110100#16 = .ok (.addReg 0xA#4 0xB#4) ∧
  decode 0b1000000100101110#16 = .ok (.shl 0x1#4 0x2#4) ∧
  decode 0b1101000000010101#16 = .ok (.drw 0x0#4 0x1#4 0x5#4) ∧
  decode 0b1110010110100001#16 = .ok (.sknp 0x5#4) ∧
  decode 0b1111001001100101#16 = .ok (.ldVxI 0x2#4) ∧
  decode 0b1000000100101000#16 = .error .group8

/-! ## The step -/

/-- With a program loaded, the core running and its turn, and the two bytes at PC in range and decoding to `i`, the step is
`exec i` after the turn is taken and 2 is added to PC (20_memory.md R65). Whose turn it is, and the load, are the
model's own (log 3, log 7). -/
def Obligations.StepRunsDecodedInstruction : Prop :=
  ∀ (s : State) (i : Instr), s.run = .running → s.boot = .loaded → s.nextTurn = .core →
    s.pc.toNat + 2 ≤ memSize → decode (joinBytes (s.readByte s.pc.toNat) (s.readByte (s.pc.toNat + 1))) = .ok i →
    step s = exec i { s.afterTurn with pc := s.pc + 2#16 }

/-- A fetch of which a byte is at 0x1000 or above raises `MEM_RANGE` with the lowest such address and no opcode; PC is
not advanced and nothing executes (20_memory.md R52, R65, 60_exceptions.md R203). Turn and load as above. -/
def Obligations.FetchOutOfRangeFaults : Prop :=
  ∀ s : State, s.run = .running → s.boot = .loaded → s.nextTurn = .core → memSize < s.pc.toNat + 2 →
    step s = .next { s.afterTurn with run := .faulted (.memRange (max s.pc.toNat 0x1000) s.pc none) }

/-- An unrecognised opcode changes nothing under `ignore`, the default, so that PC keeps the baseline increment, and raises
`UNKNOWN_OPCODE` under `fault` (30_encoding.md R81); said of `execute` and of the whole instruction step. -/
def Obligations.UnrecognisedOpcodePolicy : Prop :=
  State.reset.cfg.unknownOpcodePolicy = .ignore ∧
  (∀ (op : Word) (e : DecodeReject) (s : State), decode op = .error e →
    (s.cfg.unknownOpcodePolicy = .ignore → execute op s = .next s) ∧
    (s.cfg.unknownOpcodePolicy = .fault →
      execute op s = .next { s with run := .faulted (.unknownOpcode (s.pc - 2#16) op) })) ∧
  (∀ (e : DecodeReject) (s : State), s.pc.toNat + 2 ≤ memSize → decode (s.wordAt s.pc.toNat) = .error e →
    (s.cfg.unknownOpcodePolicy = .ignore → instrStep s = .next { s with pc := s.pc + 2#16 }) ∧
    (s.cfg.unknownOpcodePolicy = .fault → instrStep s = .next
      { s with pc := s.pc + 2#16, run := .faulted (.unknownOpcode s.pc (s.wordAt s.pc.toNat)) }))

/-- From a faulted state no step is taken, whichever agent's turn it is: the step answers the recorded fault
(60_exceptions.md R202; that answer is the model's, log 8). -/
def Obligations.FaultedCoreTakesNoStep : Prop :=
  ∀ (s : State) (f : Fault), s.run = .faulted f → step s = .fault f ∧ s.tickEnabled = false

/-- The key-event step: an event that maps to a key writes V[x] and resolves the wait, one that does not is passed over,
and no event leaves the wait as it is (43_io.md R173). Where the answer comes from, and the fields calls, inputs and
drawn, are the model's own (log 4, log 5, log 6). -/
def Obligations.KeyEventResolvesOrWaits : Prop :=
  ∀ (s : State) (x : RegIdx), s.run = .awaitingKey x → s.boot = .loaded → s.nextTurn = .core →
    ∃ t, step s = .next t ∧
      (s.afterTurn.keyEventAnswer = none →
        t = { s.afterTurn with
              drawn := s.afterTurn.drawn + 1,
              inputs := { s.afterTurn.inputs with keyEvents := s.afterTurn.inputs.keyEvents.tail } }) ∧
      (∀ raw, s.afterTurn.keyEventAnswer = some raw → s.cfg.keyMap.lookup raw = none →
        t = { s.afterTurn with
              calls := .keyMap raw :: .hostNextKeyDown :: s.calls, drawn := s.afterTurn.drawn + 1,
              inputs := { s.afterTurn.inputs with keyEvents := s.afterTurn.inputs.keyEvents.tail } }) ∧
      (∀ raw k, s.afterTurn.keyEventAnswer = some raw → s.cfg.keyMap.lookup raw = some k →
        t.run = .running ∧ (t.V x).toNat = k.toNat ∧ (∀ j, j ≠ x → t.V j = s.V j) ∧
        t = { s.afterTurn with
              v := t.v, run := .running,
              calls := .keyMap raw :: .hostNextKeyDown :: s.calls, drawn := s.afterTurn.drawn + 1,
              inputs := { s.afterTurn.inputs with keyEvents := s.afterTurn.inputs.keyEvents.tail } })

/-- A tick decrements each timer that is not 0 and changes nothing else; it is enabled while running, and during a key
wait only under `TICK_DURING_KEY_WAIT` (60_exceptions.md R209). -/
def Obligations.TickDecrementsNonzeroTimers : Prop :=
  ∀ s : State,
    (s.tick.dt.toNat = if 0 < s.dt.toNat then s.dt.toNat - 1 else 0) ∧
    (s.tick.st.toNat = if 0 < s.st.toNat then s.st.toNat - 1 else 0) ∧
    s.tick = { s with dt := s.tick.dt, st := s.tick.st } ∧
    (s.tickEnabled = true ↔
      s.run = .running ∨ (∃ x, s.run = .awaitingKey x) ∧ s.cfg.tickDuringKeyWait = true)

/-- The timer's turn comes only when a tick is enabled, and is then one tick (60_exceptions.md R205, R209; the list of turns
is the model's own, log 3). -/
def Obligations.TimerTurnTicks : Prop :=
  ∀ s : State, s.boot = .loaded → s.nextTurn = .timer →
    s.tickEnabled = true ∧ step s = .next { s.afterTurn with dt := s.tick.dt, st := s.tick.st }

/-- The key wait is left only by an event that maps to a key, and everything survives it but V[x] on exit and, under
`TICK_DURING_KEY_WAIT`, DT and ST (60_exceptions.md R214); calls, inputs and drawn are the model's own. -/
def Obligations.KeyWaitPreservesState : Prop :=
  ∀ (s t : State) (x : RegIdx), s.run = .awaitingKey x → s.boot = .loaded → step s = .next t →
    (t.run = .awaitingKey x ∧ t.v = s.v ∨
      t.run = .running ∧ (∃ raw k, s.cfg.keyMap.lookup raw = some k ∧ t.V x = k.setWidth 8) ∧
        ∀ j, j ≠ x → t.V j = s.V j) ∧
    (s.cfg.tickDuringKeyWait = false → t.dt = s.dt ∧ t.st = s.st) ∧
    t = { s with v := t.v, run := t.run, dt := t.dt, st := t.st, calls := t.calls, inputs := t.inputs, drawn := t.drawn }

/-- The state the host places a word in runs that instruction next: the step executes it in a state whose registers, I,
timers, call stack and memory outside the two bytes are those of the state it was placed in, with PC two past the word
(the model's own interface, log 7). -/
def Obligations.PlacedWordRunsNext : Prop :=
  ∀ (s : State) (i : Instr), s.Inv → (s.boot = .loaded → s.pc.toNat + 2 ≤ memSize) →
    ∃ u, step (s.withFetchWord 16 (encode i).toNat) = exec i u ∧ u.run = .running ∧ u.boot = .loaded ∧
      (s.boot = .loaded → u.pc = s.pc + 2#16) ∧ (s.boot ≠ .loaded → u.pc = 0x202#16) ∧
      (∀ a, a + 2 ≠ u.pc.toNat → a + 1 ≠ u.pc.toNat → u.readByte a = s.readByte a) ∧
      u = { s with mem := u.mem, pc := u.pc, run := u.run, boot := u.boot, inputs := u.inputs, drawn := u.drawn }

/-! ## Boot -/

/-- An image fits when its size plus 0x200 is below 4096, that is up to 3583 bytes; a larger one is fatal and writes
nothing (70_reset_and_hazards.md R232). -/
def Obligations.LoadRejectsTooLargeImage : Prop :=
  ∀ (s : State) (image : List Byte),
    (image.length ≤ 3583 → (s.load image).run = s.run) ∧
    (3583 < image.length → s.load image = { s with run := .faulted (.loadTooLarge image.length) })

/-- `load` writes the image in order from 0x200, leaves every other byte, and sets PC to 0x200
(70_reset_and_hazards.md R233). An offered image is loaded by a step, and no step before it fetches: the field boot is
the model's reading of that (log 7). -/
def Obligations.LoadWritesImageAndEntersAt200 : Prop :=
  (∀ (s : State) (image : List Byte), Memory.wf s.cfg s.mem = true → image.length ≤ 3583 →
    ∃ t, s.load image = t ∧ t.pc = 0x200#16 ∧ t.boot = .loaded ∧
      (∀ k (hk : k < image.length), t.readByte (0x200 + k) = image[k]) ∧
      (∀ a, a < 0x200 ∨ 0x200 + image.length ≤ a → t.readByte a = s.readByte a) ∧
      t = { s with mem := t.mem, pc := t.pc, boot := t.boot }) ∧
  (∀ (s : State) (image : List Byte), s.NotFaulted → s.boot = .offered image → step s = .next (s.load image)) ∧
  (∀ s : State, s.NotFaulted → s.boot = .waiting → step s = .next s)

/-- Reset: registers, timers, stack and memory are zero but for the font, RUN is Running, PC is 0 until `load` and 0x200
after it, with the image in memory (70_reset_and_hazards.md R231), for every value of the parameters. -/
def Obligations.ResetValues : Prop :=
  State.reset = State.resetWith Config.reference ∧
  ∀ (c : Config) (image : List Byte), image.length ≤ 3583 →
    (State.resetWith c).pc = 0x000#16 ∧ ((State.resetWith c).load image).pc = 0x200#16 ∧
    (∀ u, u = State.resetWith c ∨ u = (State.resetWith c).load image →
      (∀ x, u.V x = 0#8) ∧ u.i = 0#16 ∧ u.dt = 0#8 ∧ u.st = 0#8 ∧ u.sp = 0 ∧ (∀ k, u.stackEntry k = 0#16) ∧
      u.run = .running) ∧
    (∀ a, (State.resetWith c).readByte a = if h : a < 80 then c.fontData[a] else 0#8) ∧
    (∀ k (hk : k < image.length), ((State.resetWith c).load image).readByte (0x200 + k) = image[k]) ∧
    (∀ a, a < 0x200 ∨ 0x200 + image.length ≤ a →
      ((State.resetWith c).load image).readByte a = (State.resetWith c).readByte a)

/-! ## Rules of the whole machine -/

/-- Every step keeps the invariant: memory and call-stack storage stay canonical and within their bounds, and SP within
0..`STACK_DEPTH` (20_memory.md R50, R52, 10_state.md R29). -/
def Obligations.EveryStepKeepsTheInvariant : Prop :=
  ∀ s t : State, s.Inv → step s = .next t → t.Inv

/-- The invariant holds after reset, for every legal value of the parameters and for those of the model's reset. -/
def Obligations.InvariantHoldsAtReset : Prop :=
  State.reset.Inv ∧ ∀ c : Config, Config.wf c = true → (State.resetWith c).Inv

/-- No step changes the parameters (00_scope.md R6), and a loaded program stays loaded. -/
def Obligations.StepsKeepTheParameters : Prop :=
  ∀ s t : State, step s = .next t → t.cfg = s.cfg ∧ (s.boot = .loaded → t.boot = .loaded)

/-- Faults are precise: of an instruction that faults, the state after the fetch is kept with only RUN changed, and a
fault in the fetch leaves PC unadvanced (60_exceptions.md R203). -/
def Obligations.FaultsArePrecise : Prop :=
  ∀ (s t : State) (f : Fault), s.run = .running → instrStep s = .next t → t.run = .faulted f →
    (s.pc.toNat + 2 ≤ memSize → t = { s with pc := s.pc + 2#16, run := .faulted f }) ∧
    (memSize < s.pc.toNat + 2 → t = { s with run := .faulted f })

/-- Which fault an instruction step can raise, when, and what it records: the address the opcode was fetched from, the
opcode fetched, and SP or the lowest out-of-range address (60_exceptions.md R201, R204). -/
def Obligations.FaultRecordsSayWhatHappened : Prop :=
  ∀ (s t : State), s.run = .running → instrStep s = .next t →
    (∀ a op d, t.run = .faulted (.stackOverflow a op d) →
      a = s.pc ∧ op = s.wordAt s.pc.toNat ∧ d = s.sp ∧ s.sp = s.cfg.stackDepth ∧ ∃ nnn, decode op = .ok (.call nnn)) ∧
    (∀ a op, t.run = .faulted (.stackUnderflow a op) →
      a = s.pc ∧ op = s.wordAt s.pc.toNat ∧ s.sp = 0 ∧ decode op = .ok .ret) ∧
    (∀ b a, t.run = .faulted (.memRange b a none) →
      a = s.pc ∧ memSize < s.pc.toNat + 2 ∧ b = max s.pc.toNat memSize) ∧
    (∀ b a op, t.run = .faulted (.memRange b a (some op)) →
      a = s.pc ∧ op = s.wordAt s.pc.toNat ∧ ∃ i, decode op = .ok i ∧
        i.accessLen ≠ 0 ∧ memSize < s.i.toNat + i.accessLen ∧ b = max s.i.toNat memSize) ∧
    (∀ a op, t.run = .faulted (.unknownOpcode a op) →
      a = s.pc ∧ op = s.wordAt s.pc.toNat ∧ s.cfg.unknownOpcodePolicy = .fault ∧ ∃ e, decode op = .error e) ∧
    (∀ n, t.run ≠ .faulted (.loadTooLarge n))

/-- A general register that the table of R22 does not list as written keeps its value, whatever the instruction
(10_state.md R22; so VF is written only as R21 says). -/
def Obligations.OnlyListedRegistersAreWritten : Prop :=
  ∀ (i : Instr) (s t : State) (j : RegIdx), exec i s = .next t → i.writes j = false → t.V j = s.V j

/-- A general register that the table of R22 does not list as read does not matter: with another value in it the
instruction does the same to everything else, and the register itself ends the same where it is written and keeps that
other value where it is not (10_state.md R22). -/
def Obligations.UnreadRegistersDoNotMatter : Prop :=
  ∀ (i : Instr) (s : State) (j : RegIdx) (b : Byte), s.run = .running → i.reads j = false →
    ∃ t u, exec i s = .next t ∧ exec i (s.setV j b) = .next u ∧
      (i.writes j = true → t.NotFaulted → u = t) ∧
      (i.writes j = false ∨ ¬ t.NotFaulted → u = t.setV j b)

/-- I is written by LD I, ADD I and LD F alone, DT by LD DT alone and ST by LD ST alone (10_state.md R25, R28). -/
def Obligations.IndexAndTimerWriters : Prop :=
  ∀ (i : Instr) (s t : State), exec i s = .next t →
    (t.i = match i with
      | .ldI nnn => nnn.setWidth 16
      | .addI x => BitVec.ofNat 16 (s.i.toNat + (s.V x).toNat)
      | .ldF x => BitVec.ofNat 16 ((s.V x).toNat * 5)
      | _ => s.i) ∧
    (t.dt = match i with
      | .ldDtVx x => s.V x
      | _ => s.dt) ∧
    (t.st = match i with
      | .ldStVx x => s.V x
      | _ => s.st)

/-- PC is written by the jumps, CALL, RET and a taken skip alone (10_state.md R26); what the other writers do where they
do not fault is said of each. -/
def Obligations.ProgramCounterWriters : Prop :=
  ∀ (i : Instr) (s t : State), exec i s = .next t →
    match i with
    | .jp nnn => t.pc = nnn.setWidth 16
    | .jpV0 nnn => t.pc = BitVec.ofNat 16 (nnn.toNat + (s.V 0x0#4).toNat)
    | .call nnn => t.pc = nnn.setWidth 16 ∨ s.sp = s.cfg.stackDepth ∧ t.pc = s.pc
    | .ret => (∃ n, s.sp = n + 1 ∧ t.pc = s.stackEntry n) ∨ s.sp = 0 ∧ t.pc = s.pc
    | .seImm _ _ | .sneImm _ _ | .seReg _ _ | .sneReg _ _ | .skp _ | .sknp _ => t.pc = s.pc ∨ t.pc = s.pc + 2#16
    | _ => t.pc = s.pc

/-- The call stack is touched by CALL and RET alone, the run state by Fx0A and by faults alone, and the parameters and the
boot state by no instruction (10_state.md R29, R30, R32). -/
def Obligations.StackAndRunStateWriters : Prop :=
  ∀ (i : Instr) (s t : State), exec i s = .next t →
    ((∀ nnn, i ≠ .call nnn) → i ≠ .ret → t.stack = s.stack ∧ t.sp = s.sp) ∧
    (t.run = s.run ∨ (∃ x, i = .ldVxK x ∧ t.run = .awaitingKey x) ∨ ∃ f, t.run = .faulted f) ∧
    t.cfg = s.cfg ∧ t.boot = s.boot

/-- Memory is written by LD B and LD [I] alone, and by them only at I..I+2 and I..I+x (20_memory.md R50, R55): every other
byte reads as before. -/
def Obligations.MemoryWriters : Prop :=
  ∀ (i : Instr) (s t : State), exec i s = .next t →
    ((∀ x, i ≠ .ldB x) → (∀ x, i ≠ .ldIVx x) → t.mem = s.mem ∧ ∀ a, t.readByte a = s.readByte a) ∧
    ∀ a, a < s.i.toNat ∨ s.i.toNat + i.accessLen ≤ a → t.readByte a = s.readByte a

/-- Which collaborator each instruction calls: CLS and DRW the screen, RND the random source, SKP and SKNP the keyboard,
each once, and no other instruction any (60_exceptions.md R211); a DRW that faults calls none (R203). The record of calls
is the model's form of them (log 4). -/
def Obligations.CollaboratorCallsByInstruction : Prop :=
  ∀ (i : Instr) (s t : State), exec i s = .next t →
    match i with
    | .cls => t.calls = .screenClear :: s.calls
    | .rnd _ _ => t.calls = .rndNext :: s.calls
    | .skp x | .sknp x => t.calls = .keyIsDown (s.V x) :: s.calls
    | .drw x y n =>
      (n.toNat = 0 ∨ s.i.toNat + n.toNat ≤ memSize) ∧ (∃ bytes : List Byte, bytes.length = n.toNat ∧
        (∀ k (hk : k < bytes.length), bytes[k] = s.readByte (s.i.toNat + k)) ∧
        t.calls = .screenDraw (s.V x) (s.V y) bytes n.toNat :: s.calls) ∨
      (∃ f, t.run = .faulted f) ∧ t.calls = s.calls
    | _ => t.calls = s.calls

/-- Every instruction answers a next state from every state: none is refused, and a fatal condition is entered as a state
(00_scope.md R2, 60_exceptions.md R200). -/
def Obligations.EveryInstructionAnswersNext : Prop :=
  ∀ (i : Instr) (s : State), ∃ t, exec i s = .next t

/-! ## Primary Dispatcher -/

/-- CLS is 00E0 exactly, calls the screen once and changes nothing else (40_primary.md R100); the record of calls is the
model's form of the call (log 4). -/
def Obligations.ClsCallsTheScreenOnce : Prop :=
  (∀ w : Word, decode w = .ok .cls ↔ w = 0x00E0#16) ∧
  ∀ s : State, ∃ t, exec .cls s = .next t ∧ t = { s with calls := .screenClear :: s.calls }

/-- RET is 00EE exactly, pops PC, and raises `STACK_UNDERFLOW` when SP = 0 (40_primary.md R101, 41_extended.md R111). -/
def Obligations.RetPopsTheReturnAddress : Prop :=
  (∀ w : Word, decode w = .ok .ret ↔ w = 0x00EE#16) ∧
  (∀ (s : State) (n : Nat), s.sp = n + 1 →
    ∃ t, exec .ret s = .next t ∧ t = { s with pc := s.stackEntry n, sp := n }) ∧
  (∀ s : State, s.sp = 0 →
    exec .ret s = .next { s with run := .faulted (.stackUnderflow (s.pc - 2#16) 0x00EE#16) })

/-! ## Jumps and calls -/

/-- CALL pushes PC and jumps, and raises `STACK_OVERFLOW` when SP = `STACK_DEPTH` (41_extended.md R110, R114). -/
def Obligations.CallPushesTheReturnAddress : Prop :=
  ∀ nnn : Addr, HasWord (0x2#4 ++ nnn) (.call nnn) ∧
    (∀ s : State, s.Inv → s.sp ≠ s.cfg.stackDepth →
      ∃ t, exec (.call nnn) s = .next t ∧ t.pc = nnn.setWidth 16 ∧ t.sp = s.sp + 1 ∧ t.stackEntry s.sp = s.pc ∧
        OnlyStackEntryAndPc s.sp s t) ∧
    (∀ s : State, s.sp = s.cfg.stackDepth →
      exec (.call nnn) s =
        .next { s with run := .faulted (.stackOverflow (s.pc - 2#16) (0x2#4 ++ nnn) s.sp) })

/-- JP jumps to nnn, and JP V0 to nnn plus V0 with no reduction; neither faults, and a target of 0xFFF or more makes the next
fetch raise `MEM_RANGE` (41_extended.md R113, R123). -/
def Obligations.JumpsSetTheProgramCounter : Prop :=
  ∀ nnn : Addr, HasWord (0x1#4 ++ nnn) (.jp nnn) ∧ HasWord (0xB#4 ++ nnn) (.jpV0 nnn) ∧ ∀ s : State,
    (∃ t, exec (.jp nnn) s = .next t ∧ t.pc.toNat = nnn.toNat ∧ t = { s with pc := t.pc } ∧
      (nnn = 0xFFF#12 → instrStep t = .next { t with run := .faulted (.memRange 0x1000 t.pc none) })) ∧
    (∃ t, exec (.jpV0 nnn) s = .next t ∧ t.pc.toNat = nnn.toNat + (s.V 0x0#4).toNat ∧ t = { s with pc := t.pc } ∧
      (0xFFF ≤ t.pc.toNat →
        instrStep t = .next { t with run := .faulted (.memRange (max t.pc.toNat 0x1000) t.pc none) }))

/-- A RET after a CALL restores PC and SP, whatever ran between that left the call stack as the CALL left it
(40_primary.md R101, 41_extended.md R114). -/
def Obligations.CallThenRetRestores : Prop :=
  ∀ (s t u : State) (nnn : Addr), s.Inv → s.sp ≠ s.cfg.stackDepth → exec (.call nnn) s = .next t →
    u.stack = t.stack → u.sp = t.sp →
    ∃ w, exec .ret u = .next w ∧ w.pc = s.pc ∧ w.sp = s.sp ∧ w = { u with pc := w.pc, sp := w.sp }

/-! ## Skips -/

/-- SE and SNE with an immediate skip by their condition and change PC alone (41_extended.md R115, R116). -/
def Obligations.ImmediateSkips : Prop :=
  ∀ (x : RegIdx) (kk : Byte),
    HasWord (0x3#4 ++ x ++ kk) (.seImm x kk) ∧ HasWord (0x4#4 ++ x ++ kk) (.sneImm x kk) ∧ ∀ s : State,
    (∃ t, exec (.seImm x kk) s = .next t ∧ t = { s with pc := if s.V x = kk then s.pc + 2#16 else s.pc }) ∧
    (∃ t, exec (.sneImm x kk) s = .next t ∧ t = { s with pc := if s.V x = kk then s.pc else s.pc + 2#16 })

/-- SE and SNE of two registers, for every low nibble (41_extended.md R117, R121). -/
def Obligations.RegisterSkips : Prop :=
  ∀ (x y : RegIdx),
    (∀ n : Nibble, decode (0x5#4 ++ x ++ y ++ n) = .ok (.seReg x y) ∧
      decode (0x9#4 ++ x ++ y ++ n) = .ok (.sneReg x y)) ∧
    ∀ s : State,
    (∃ t, exec (.seReg x y) s = .next t ∧ t = { s with pc := if s.V x = s.V y then s.pc + 2#16 else s.pc }) ∧
    (∃ t, exec (.sneReg x y) s = .next t ∧ t = { s with pc := if s.V x = s.V y then s.pc else s.pc + 2#16 })

/-- SKP and SKNP ask once whether the key V[x] is down, with the full 8-bit value, and skip by the answer (41_extended.md
R126, R127). The answer is a free input and calls, inputs and drawn are the model's own (log 4, log 5). -/
def Obligations.KeySkipsFollowTheAnswer : Prop :=
  ∀ x : RegIdx, HasWord (0xE#4 ++ x ++ 0x9E#8) (.skp x) ∧ HasWord (0xE#4 ++ x ++ 0xA1#8) (.sknp x) ∧ ∀ s : State,
    (∃ t, exec (.skp x) s = .next t ∧
      t = { s with pc := if s.keyDownAnswer (s.V x) = true then s.pc + 2#16 else s.pc,
                   calls := .keyIsDown (s.V x) :: s.calls, drawn := s.drawn + 1,
                   inputs := { s.inputs with keyDown := s.inputs.keyDown.tail } }) ∧
    (∃ t, exec (.sknp x) s = .next t ∧
      t = { s with pc := if s.keyDownAnswer (s.V x) = true then s.pc else s.pc + 2#16,
                   calls := .keyIsDown (s.V x) :: s.calls, drawn := s.drawn + 1,
                   inputs := { s.inputs with keyDown := s.inputs.keyDown.tail } })

/-! ## Immediates, index, random, draw -/

/-- LD Vx, kk and ADD Vx, kk: V[x] takes kk, or the sum mod 256 with no carry flag (41_extended.md R118, R119). -/
def Obligations.ImmediateLoadAndAdd : Prop :=
  ∀ (x : RegIdx) (kk : Byte),
    HasWord (0x6#4 ++ x ++ kk) (.ldImm x kk) ∧ HasWord (0x7#4 ++ x ++ kk) (.addImm x kk) ∧ ∀ s : State,
    (∃ t, exec (.ldImm x kk) s = .next t ∧ t.V x = kk ∧ OnlyRegs (fun j => j = x) s t) ∧
    (∃ t, exec (.addImm x kk) s = .next t ∧ (t.V x).toNat = ((s.V x).toNat + kk.toNat) % 256 ∧
      OnlyRegs (fun j => j = x) s t)

/-- LD I, ADD I and LD F: I takes nnn, the 16-bit sum, or V[x] * 5 with V[x] unreduced, and nothing else changes
(41_extended.md R122, 43_io.md R176, R177). -/
def Obligations.IndexRegisterLoads : Prop :=
  (∀ nnn : Addr, HasWord (0xA#4 ++ nnn) (.ldI nnn) ∧ ∀ s : State,
    ∃ t, exec (.ldI nnn) s = .next t ∧ t.i.toNat = nnn.toNat ∧ t = { s with i := t.i }) ∧
  (∀ x : RegIdx, HasWord (0xF#4 ++ x ++ 0x1E#8) (.addI x) ∧ HasWord (0xF#4 ++ x ++ 0x29#8) (.ldF x) ∧ ∀ s : State,
    (∃ t, exec (.addI x) s = .next t ∧ t.i.toNat = (s.i.toNat + (s.V x).toNat) % 65536 ∧ t = { s with i := t.i }) ∧
    (∃ t, exec (.ldF x) s = .next t ∧ t.i.toNat = (s.V x).toNat * 5 ∧ t = { s with i := t.i }))

/-- RND draws one byte from the random source and writes it to V[x] masked with kk (41_extended.md R124). The byte is a free
input and calls, inputs and drawn are the model's own (log 4, log 5). -/
def Obligations.RndMasksTheRandomByte : Prop :=
  ∀ (x : RegIdx) (kk : Byte), HasWord (0xC#4 ++ x ++ kk) (.rnd x kk) ∧ ∀ s : State,
    ∃ t, exec (.rnd x kk) s = .next t ∧ t.V x = s.randomAnswer &&& kk ∧ (∀ j, j ≠ x → t.V j = s.V j) ∧
      t = { s with v := t.v, calls := .rndNext :: s.calls, drawn := s.drawn + 1,
                   inputs := { s.inputs with random := s.inputs.random.tail } }

/-- DRW reads n bytes from I, calls the screen with the register values as they were, and puts the collision answer in VF as
1 or 0; where a byte of the sprite does not exist it raises `MEM_RANGE` and does none of it (41_extended.md R125). The
answer is a free input and calls, inputs and drawn are the model's own (log 4, log 5). -/
def Obligations.DrwDrawsAndReportsCollision : Prop :=
  ∀ (x y : RegIdx) (n : Nibble), HasWord (0xD#4 ++ x ++ y ++ n) (.drw x y n) ∧
    (∀ s : State, n.toNat = 0 ∨ s.i.toNat + n.toNat ≤ 0x1000 →
      ∃ t, exec (.drw x y n) s = .next t ∧ t.V regF = (if s.collisionAnswer = true then 1#8 else 0#8) ∧
        (∀ j, j ≠ regF → t.V j = s.V j) ∧
        t = { s with v := t.v, drawn := s.drawn + 1,
                     inputs := { s.inputs with collision := s.inputs.collision.tail },
                     calls := .screenDraw (s.V x) (s.V y)
                       ((List.range n.toNat).map fun k => s.readByte (s.i.toNat + k)) n.toNat :: s.calls }) ∧
    (∀ s : State, n.toNat ≠ 0 → 0x1000 < s.i.toNat + n.toNat →
      exec (.drw x y n) s = .next
        { s with run := .faulted (.memRange (max s.i.toNat 0x1000) (s.pc - 2#16) (some (0xD#4 ++ x ++ y ++ n))) })

/-! ## ALU group -/

/-- LD, OR, AND and XOR of two registers write V[x] alone; VF is no flag of theirs (42_alu.md R151-R154). -/
def Obligations.CopyAndLogic : Prop :=
  ∀ x y : RegIdx,
    HasWord (0x8#4 ++ x ++ y ++ 0x0#4) (.ldReg x y) ∧ HasWord (0x8#4 ++ x ++ y ++ 0x1#4) (.orReg x y) ∧
    HasWord (0x8#4 ++ x ++ y ++ 0x2#4) (.andReg x y) ∧ HasWord (0x8#4 ++ x ++ y ++ 0x3#4) (.xorReg x y) ∧
    ∀ s : State,
    (∃ t, exec (.ldReg x y) s = .next t ∧ t.V x = s.V y ∧ OnlyRegs (fun j => j = x) s t) ∧
    (∃ t, exec (.orReg x y) s = .next t ∧ t.V x = s.V x ||| s.V y ∧ OnlyRegs (fun j => j = x) s t) ∧
    (∃ t, exec (.andReg x y) s = .next t ∧ t.V x = s.V x &&& s.V y ∧ OnlyRegs (fun j => j = x) s t) ∧
    (∃ t, exec (.xorReg x y) s = .next t ∧ t.V x = s.V x ^^^ s.V y ∧ OnlyRegs (fun j => j = x) s t)

/-- ADD Vx, Vy in both alias modes: the sum mod 256, VF = 1 if the widened sum exceeds 255 (42_alu.md R150, R155). -/
def Obligations.AddRegisterWithCarry : Prop :=
  ∀ x y : RegIdx, HasWord (0x8#4 ++ x ++ y ++ 0x4#4) (.addReg x y) ∧ ∀ s : State,
    ∃ t, exec (.addReg x y) s = .next t ∧
      AluEffect s t x y (if 255 < (s.V x).toNat + (s.V y).toNat then 1#8 else 0#8)
        (fun a b => BitVec.ofNat 8 (a.toNat + b.toNat))

/-- SUB and SUBN in both alias modes: the difference mod 256, VF = 1 if the minuend is strictly greater (42_alu.md R150, R156,
R158). -/
def Obligations.SubtractWithStrictFlag : Prop :=
  ∀ x y : RegIdx,
    HasWord (0x8#4 ++ x ++ y ++ 0x5#4) (.subReg x y) ∧ HasWord (0x8#4 ++ x ++ y ++ 0x7#4) (.subn x y) ∧ ∀ s : State,
    (∃ t, exec (.subReg x y) s = .next t ∧
      AluEffect s t x y (if (s.V y).toNat < (s.V x).toNat then 1#8 else 0#8)
        (fun a b => BitVec.ofInt 8 ((a.toNat : Int) - b.toNat))) ∧
    (∃ t, exec (.subn x y) s = .next t ∧
      AluEffect s t x y (if (s.V x).toNat < (s.V y).toNat then 1#8 else 0#8)
        (fun a b => BitVec.ofInt 8 ((b.toNat : Int) - a.toNat)))

/-- SHR and SHL in both alias modes, for every y field: V[x] halved with VF its old bit 0, or doubled mod 256 with VF 0x80 or
0 by its old bit 7 (42_alu.md R150, R157, R159). -/
def Obligations.ShiftsByOne : Prop :=
  ∀ x y : RegIdx,
    HasWord (0x8#4 ++ x ++ y ++ 0x6#4) (.shr x y) ∧ HasWord (0x8#4 ++ x ++ y ++ 0xE#4) (.shl x y) ∧ ∀ s : State,
    (∃ t, exec (.shr x y) s = .next t ∧
      AluEffect s t x y (if (s.V x).toNat % 2 = 1 then 1#8 else 0#8) (fun a _ => BitVec.ofNat 8 (a.toNat / 2))) ∧
    (∃ t, exec (.shl x y) s = .next t ∧
      AluEffect s t x y (if 128 ≤ (s.V x).toNat then 0x80#8 else 0x00#8) (fun a _ => BitVec.ofNat 8 (a.toNat * 2)))

/-- The two alias modes give the same result whenever neither operand is VF (42_alu.md R150). -/
def Obligations.AliasModesAgreeWithoutVf : Prop :=
  ∀ (i : Instr) (x y : RegIdx) (s : State), i ∈ [.addReg x y, .subReg x y, .shr x y, .subn x y, .shl x y] →
    x ≠ regF → y ≠ regF →
    ∃ t, exec i { s with cfg := { s.cfg with aluAliasMode := .latched } } = .next t ∧
      exec i { s with cfg := { s.cfg with aluAliasMode := .sequential } } =
        .next { t with cfg := { s.cfg with aluAliasMode := .sequential } }

/-! ## I/O group -/

/-- LD Vx, DT reads the delay timer; LD DT, Vx and LD ST, Vx set the timers (43_io.md R171, R174, R175). -/
def Obligations.TimerMoves : Prop :=
  ∀ x : RegIdx,
    HasWord (0xF#4 ++ x ++ 0x07#8) (.ldVxDt x) ∧ HasWord (0xF#4 ++ x ++ 0x15#8) (.ldDtVx x) ∧
    HasWord (0xF#4 ++ x ++ 0x18#8) (.ldStVx x) ∧ ∀ s : State,
    (∃ t, exec (.ldVxDt x) s = .next t ∧ t.V x = s.dt ∧ OnlyRegs (fun j => j = x) s t) ∧
    (∃ t, exec (.ldDtVx x) s = .next t ∧ t = { s with dt := s.V x }) ∧
    (∃ t, exec (.ldStVx x) s = .next t ∧ t = { s with st := s.V x })

/-- LD Vx, K enters the wait and writes nothing else (43_io.md R172). -/
def Obligations.KeyWaitEntry : Prop :=
  ∀ x : RegIdx, HasWord (0xF#4 ++ x ++ 0x0A#8) (.ldVxK x) ∧ ∀ s : State,
    ∃ t, exec (.ldVxK x) s = .next t ∧ t = { s with run := .awaitingKey x }

/-- LD B, Vx stores the three decimal digits of V[x] at I, I+1 and I+2, or raises `MEM_RANGE` and stores none (43_io.md
R178). -/
def Obligations.BcdStore : Prop :=
  ∀ x : RegIdx, HasWord (0xF#4 ++ x ++ 0x33#8) (.ldB x) ∧
    (∀ s : State, s.Inv → s.i.toNat + 2 < 0x1000 →
      ∃ t, exec (.ldB x) s = .next t ∧
        (t.readByte s.i.toNat).toNat = (s.V x).toNat / 100 ∧
        (t.readByte (s.i.toNat + 1)).toNat = (s.V x).toNat / 10 % 10 ∧
        (t.readByte (s.i.toNat + 2)).toNat = (s.V x).toNat % 10 ∧ OnlyBytes s.i.toNat 3 s t) ∧
    (∀ s : State, 0x1000 ≤ s.i.toNat + 2 →
      exec (.ldB x) s = .next
        { s with run := .faulted (.memRange (max s.i.toNat 0x1000) (s.pc - 2#16) (some (0xF#4 ++ x ++ 0x33#8))) })

/-- LD [I], Vx stores V0 through Vx from I upward, or raises `MEM_RANGE` and stores none (43_io.md R179). -/
def Obligations.BlockStore : Prop :=
  ∀ x : RegIdx, HasWord (0xF#4 ++ x ++ 0x55#8) (.ldIVx x) ∧
    (∀ s : State, s.Inv → s.i.toNat + x.toNat < 0x1000 →
      ∃ t, exec (.ldIVx x) s = .next t ∧
        (∀ j : RegIdx, j.toNat ≤ x.toNat → t.readByte (s.i.toNat + j.toNat) = s.V j) ∧
        OnlyBytes s.i.toNat (x.toNat + 1) s t) ∧
    (∀ s : State, 0x1000 ≤ s.i.toNat + x.toNat →
      exec (.ldIVx x) s = .next
        { s with run := .faulted (.memRange (max s.i.toNat 0x1000) (s.pc - 2#16) (some (0xF#4 ++ x ++ 0x55#8))) })

/-- LD Vx, [I] loads V0 through Vx from I upward, or raises `MEM_RANGE` and loads none (43_io.md R180). -/
def Obligations.BlockLoad : Prop :=
  ∀ x : RegIdx, HasWord (0xF#4 ++ x ++ 0x65#8) (.ldVxI x) ∧
    (∀ s : State, s.i.toNat + x.toNat < 0x1000 →
      ∃ t, exec (.ldVxI x) s = .next t ∧
        (∀ j : RegIdx, j.toNat ≤ x.toNat → t.V j = s.readByte (s.i.toNat + j.toNat)) ∧
        OnlyRegs (fun j => j.toNat ≤ x.toNat) s t) ∧
    (∀ s : State, 0x1000 ≤ s.i.toNat + x.toNat →
      exec (.ldVxI x) s = .next
        { s with run := .faulted (.memRange (max s.i.toNat 0x1000) (s.pc - 2#16) (some (0xF#4 ++ x ++ 0x65#8))) })

/-- Storing V0..Vx and loading them back, with I and the memory as the store left them, gives the registers stored
(43_io.md R179). -/
def Obligations.BlockStoreThenLoadRestores : Prop :=
  ∀ (s t u : State) (x : RegIdx), s.Inv → s.i.toNat + x.toNat < 0x1000 → exec (.ldIVx x) s = .next t →
    u.cfg = t.cfg → u.mem = t.mem → u.i = t.i →
    ∃ w, exec (.ldVxI x) u = .next w ∧ (∀ j : RegIdx, j.toNat ≤ x.toNat → w.V j = s.V j) ∧ w.i = s.i

/-! ## Fetch coherence and the end of a run -/

/-- A byte stored by LD [I] is seen by the next fetch: after storing at least V0 and V1 at PC, the word fetched next is V0
and V1 (20_memory.md R64). -/
def Obligations.StoresAreSeenByTheNextFetch : Prop :=
  ∀ (s : State) (x : RegIdx), s.Inv → 1 ≤ x.toNat → s.i = s.pc → s.pc.toNat + x.toNat < 0x1000 →
    ∃ t, exec (.ldIVx x) s = .next t ∧ t.pc = s.pc ∧ t.wordAt t.pc.toNat = s.V 0x0#4 ++ s.V 0x1#4

/-- At the normal end of a run the core's step repeats the self-jump: nothing changes but the model's own record of the turn
taken (70_reset_and_hazards.md R240). -/
def Obligations.EndedRunRepeatsTheSelfJump : Prop :=
  ∀ s : State, s.Ended → s.boot = .loaded → s.nextTurn = .core →
    ∃ t, step s = .next t ∧ t.Ended ∧ t = { s with inputs := t.inputs, drawn := t.drawn }
end

