-- ==== Sys2Proof/Laws/State.lean ====
section
/-! SUPPORT. One lemma per field per update of State, true by rfl, so that no later proof unfolds a record update;
and the reads of a register, of memory and of the call stack after each update. -/

namespace Sys2Proof.Machine

variable (s : State)

/-! ## setV -/

@[simp] theorem State.setV_cfg (x : RegIdx) (b : Byte) : (s.setV x b).cfg = s.cfg := rfl
@[simp] theorem State.setV_v (x : RegIdx) (b : Byte) : (s.setV x b).v = s.v.set x.toNat b := rfl
@[simp] theorem State.setV_i (x : RegIdx) (b : Byte) : (s.setV x b).i = s.i := rfl
@[simp] theorem State.setV_pc (x : RegIdx) (b : Byte) : (s.setV x b).pc = s.pc := rfl
@[simp] theorem State.setV_dt (x : RegIdx) (b : Byte) : (s.setV x b).dt = s.dt := rfl
@[simp] theorem State.setV_st (x : RegIdx) (b : Byte) : (s.setV x b).st = s.st := rfl
@[simp] theorem State.setV_stack (x : RegIdx) (b : Byte) : (s.setV x b).stack = s.stack := rfl
@[simp] theorem State.setV_sp (x : RegIdx) (b : Byte) : (s.setV x b).sp = s.sp := rfl
@[simp] theorem State.setV_run (x : RegIdx) (b : Byte) : (s.setV x b).run = s.run := rfl
@[simp] theorem State.setV_mem (x : RegIdx) (b : Byte) : (s.setV x b).mem = s.mem := rfl
@[simp] theorem State.setV_boot (x : RegIdx) (b : Byte) : (s.setV x b).boot = s.boot := rfl
@[simp] theorem State.setV_calls (x : RegIdx) (b : Byte) : (s.setV x b).calls = s.calls := rfl
@[simp] theorem State.setV_inputs (x : RegIdx) (b : Byte) : (s.setV x b).inputs = s.inputs := rfl
@[simp] theorem State.setV_drawn (x : RegIdx) (b : Byte) : (s.setV x b).drawn = s.drawn := rfl
@[simp] theorem State.setV_readByte (x : RegIdx) (b : Byte) (a : Nat) : (s.setV x b).readByte a = s.readByte a := rfl
@[simp] theorem State.setV_stackEntry (x : RegIdx) (b : Byte) (m : Nat) : (s.setV x b).stackEntry m = s.stackEntry m := rfl

/-! ## setI -/

@[simp] theorem State.setI_cfg (w : Word) : (s.setI w).cfg = s.cfg := rfl
@[simp] theorem State.setI_v (w : Word) : (s.setI w).v = s.v := rfl
@[simp] theorem State.setI_i (w : Word) : (s.setI w).i = w := rfl
@[simp] theorem State.setI_pc (w : Word) : (s.setI w).pc = s.pc := rfl
@[simp] theorem State.setI_dt (w : Word) : (s.setI w).dt = s.dt := rfl
@[simp] theorem State.setI_st (w : Word) : (s.setI w).st = s.st := rfl
@[simp] theorem State.setI_stack (w : Word) : (s.setI w).stack = s.stack := rfl
@[simp] theorem State.setI_sp (w : Word) : (s.setI w).sp = s.sp := rfl
@[simp] theorem State.setI_run (w : Word) : (s.setI w).run = s.run := rfl
@[simp] theorem State.setI_mem (w : Word) : (s.setI w).mem = s.mem := rfl
@[simp] theorem State.setI_boot (w : Word) : (s.setI w).boot = s.boot := rfl
@[simp] theorem State.setI_calls (w : Word) : (s.setI w).calls = s.calls := rfl
@[simp] theorem State.setI_inputs (w : Word) : (s.setI w).inputs = s.inputs := rfl
@[simp] theorem State.setI_drawn (w : Word) : (s.setI w).drawn = s.drawn := rfl
@[simp] theorem State.setI_readByte (w : Word) (a : Nat) : (s.setI w).readByte a = s.readByte a := rfl
@[simp] theorem State.setI_V (w : Word) (j : RegIdx) : (s.setI w).V j = s.V j := rfl
@[simp] theorem State.setI_stackEntry (w : Word) (m : Nat) : (s.setI w).stackEntry m = s.stackEntry m := rfl

/-! ## setPc -/

@[simp] theorem State.setPc_cfg (w : Word) : (s.setPc w).cfg = s.cfg := rfl
@[simp] theorem State.setPc_v (w : Word) : (s.setPc w).v = s.v := rfl
@[simp] theorem State.setPc_i (w : Word) : (s.setPc w).i = s.i := rfl
@[simp] theorem State.setPc_pc (w : Word) : (s.setPc w).pc = w := rfl
@[simp] theorem State.setPc_dt (w : Word) : (s.setPc w).dt = s.dt := rfl
@[simp] theorem State.setPc_st (w : Word) : (s.setPc w).st = s.st := rfl
@[simp] theorem State.setPc_stack (w : Word) : (s.setPc w).stack = s.stack := rfl
@[simp] theorem State.setPc_sp (w : Word) : (s.setPc w).sp = s.sp := rfl
@[simp] theorem State.setPc_run (w : Word) : (s.setPc w).run = s.run := rfl
@[simp] theorem State.setPc_mem (w : Word) : (s.setPc w).mem = s.mem := rfl
@[simp] theorem State.setPc_boot (w : Word) : (s.setPc w).boot = s.boot := rfl
@[simp] theorem State.setPc_calls (w : Word) : (s.setPc w).calls = s.calls := rfl
@[simp] theorem State.setPc_inputs (w : Word) : (s.setPc w).inputs = s.inputs := rfl
@[simp] theorem State.setPc_drawn (w : Word) : (s.setPc w).drawn = s.drawn := rfl
@[simp] theorem State.setPc_readByte (w : Word) (a : Nat) : (s.setPc w).readByte a = s.readByte a := rfl
@[simp] theorem State.setPc_V (w : Word) (j : RegIdx) : (s.setPc w).V j = s.V j := rfl
@[simp] theorem State.setPc_stackEntry (w : Word) (m : Nat) : (s.setPc w).stackEntry m = s.stackEntry m := rfl

/-! ## setDt -/

@[simp] theorem State.setDt_cfg (b : Byte) : (s.setDt b).cfg = s.cfg := rfl
@[simp] theorem State.setDt_v (b : Byte) : (s.setDt b).v = s.v := rfl
@[simp] theorem State.setDt_i (b : Byte) : (s.setDt b).i = s.i := rfl
@[simp] theorem State.setDt_pc (b : Byte) : (s.setDt b).pc = s.pc := rfl
@[simp] theorem State.setDt_dt (b : Byte) : (s.setDt b).dt = b := rfl
@[simp] theorem State.setDt_st (b : Byte) : (s.setDt b).st = s.st := rfl
@[simp] theorem State.setDt_stack (b : Byte) : (s.setDt b).stack = s.stack := rfl
@[simp] theorem State.setDt_sp (b : Byte) : (s.setDt b).sp = s.sp := rfl
@[simp] theorem State.setDt_run (b : Byte) : (s.setDt b).run = s.run := rfl
@[simp] theorem State.setDt_mem (b : Byte) : (s.setDt b).mem = s.mem := rfl
@[simp] theorem State.setDt_boot (b : Byte) : (s.setDt b).boot = s.boot := rfl
@[simp] theorem State.setDt_calls (b : Byte) : (s.setDt b).calls = s.calls := rfl
@[simp] theorem State.setDt_inputs (b : Byte) : (s.setDt b).inputs = s.inputs := rfl
@[simp] theorem State.setDt_drawn (b : Byte) : (s.setDt b).drawn = s.drawn := rfl
@[simp] theorem State.setDt_readByte (b : Byte) (a : Nat) : (s.setDt b).readByte a = s.readByte a := rfl
@[simp] theorem State.setDt_V (b : Byte) (j : RegIdx) : (s.setDt b).V j = s.V j := rfl
@[simp] theorem State.setDt_stackEntry (b : Byte) (m : Nat) : (s.setDt b).stackEntry m = s.stackEntry m := rfl

/-! ## setSt -/

@[simp] theorem State.setSt_cfg (b : Byte) : (s.setSt b).cfg = s.cfg := rfl
@[simp] theorem State.setSt_v (b : Byte) : (s.setSt b).v = s.v := rfl
@[simp] theorem State.setSt_i (b : Byte) : (s.setSt b).i = s.i := rfl
@[simp] theorem State.setSt_pc (b : Byte) : (s.setSt b).pc = s.pc := rfl
@[simp] theorem State.setSt_dt (b : Byte) : (s.setSt b).dt = s.dt := rfl
@[simp] theorem State.setSt_st (b : Byte) : (s.setSt b).st = b := rfl
@[simp] theorem State.setSt_stack (b : Byte) : (s.setSt b).stack = s.stack := rfl
@[simp] theorem State.setSt_sp (b : Byte) : (s.setSt b).sp = s.sp := rfl
@[simp] theorem State.setSt_run (b : Byte) : (s.setSt b).run = s.run := rfl
@[simp] theorem State.setSt_mem (b : Byte) : (s.setSt b).mem = s.mem := rfl
@[simp] theorem State.setSt_boot (b : Byte) : (s.setSt b).boot = s.boot := rfl
@[simp] theorem State.setSt_calls (b : Byte) : (s.setSt b).calls = s.calls := rfl
@[simp] theorem State.setSt_inputs (b : Byte) : (s.setSt b).inputs = s.inputs := rfl
@[simp] theorem State.setSt_drawn (b : Byte) : (s.setSt b).drawn = s.drawn := rfl
@[simp] theorem State.setSt_readByte (b : Byte) (a : Nat) : (s.setSt b).readByte a = s.readByte a := rfl
@[simp] theorem State.setSt_V (b : Byte) (j : RegIdx) : (s.setSt b).V j = s.V j := rfl
@[simp] theorem State.setSt_stackEntry (b : Byte) (m : Nat) : (s.setSt b).stackEntry m = s.stackEntry m := rfl

/-! ## setRun -/

@[simp] theorem State.setRun_cfg (r : Run) : (s.setRun r).cfg = s.cfg := rfl
@[simp] theorem State.setRun_v (r : Run) : (s.setRun r).v = s.v := rfl
@[simp] theorem State.setRun_i (r : Run) : (s.setRun r).i = s.i := rfl
@[simp] theorem State.setRun_pc (r : Run) : (s.setRun r).pc = s.pc := rfl
@[simp] theorem State.setRun_dt (r : Run) : (s.setRun r).dt = s.dt := rfl
@[simp] theorem State.setRun_st (r : Run) : (s.setRun r).st = s.st := rfl
@[simp] theorem State.setRun_stack (r : Run) : (s.setRun r).stack = s.stack := rfl
@[simp] theorem State.setRun_sp (r : Run) : (s.setRun r).sp = s.sp := rfl
@[simp] theorem State.setRun_run (r : Run) : (s.setRun r).run = r := rfl
@[simp] theorem State.setRun_mem (r : Run) : (s.setRun r).mem = s.mem := rfl
@[simp] theorem State.setRun_boot (r : Run) : (s.setRun r).boot = s.boot := rfl
@[simp] theorem State.setRun_calls (r : Run) : (s.setRun r).calls = s.calls := rfl
@[simp] theorem State.setRun_inputs (r : Run) : (s.setRun r).inputs = s.inputs := rfl
@[simp] theorem State.setRun_drawn (r : Run) : (s.setRun r).drawn = s.drawn := rfl
@[simp] theorem State.setRun_readByte (r : Run) (a : Nat) : (s.setRun r).readByte a = s.readByte a := rfl
@[simp] theorem State.setRun_V (r : Run) (j : RegIdx) : (s.setRun r).V j = s.V j := rfl
@[simp] theorem State.setRun_stackEntry (r : Run) (m : Nat) : (s.setRun r).stackEntry m = s.stackEntry m := rfl

/-! ## writeByte -/

@[simp] theorem State.writeByte_cfg (a : Nat) (b : Byte) : (s.writeByte a b).cfg = s.cfg := rfl
@[simp] theorem State.writeByte_v (a : Nat) (b : Byte) : (s.writeByte a b).v = s.v := rfl
@[simp] theorem State.writeByte_i (a : Nat) (b : Byte) : (s.writeByte a b).i = s.i := rfl
@[simp] theorem State.writeByte_pc (a : Nat) (b : Byte) : (s.writeByte a b).pc = s.pc := rfl
@[simp] theorem State.writeByte_dt (a : Nat) (b : Byte) : (s.writeByte a b).dt = s.dt := rfl
@[simp] theorem State.writeByte_st (a : Nat) (b : Byte) : (s.writeByte a b).st = s.st := rfl
@[simp] theorem State.writeByte_stack (a : Nat) (b : Byte) : (s.writeByte a b).stack = s.stack := rfl
@[simp] theorem State.writeByte_sp (a : Nat) (b : Byte) : (s.writeByte a b).sp = s.sp := rfl
@[simp] theorem State.writeByte_run (a : Nat) (b : Byte) : (s.writeByte a b).run = s.run := rfl
@[simp] theorem State.writeByte_mem (a : Nat) (b : Byte) : (s.writeByte a b).mem = Sparse.set (Memory.unlisted s.cfg) s.mem a b := rfl
@[simp] theorem State.writeByte_boot (a : Nat) (b : Byte) : (s.writeByte a b).boot = s.boot := rfl
@[simp] theorem State.writeByte_calls (a : Nat) (b : Byte) : (s.writeByte a b).calls = s.calls := rfl
@[simp] theorem State.writeByte_inputs (a : Nat) (b : Byte) : (s.writeByte a b).inputs = s.inputs := rfl
@[simp] theorem State.writeByte_drawn (a : Nat) (b : Byte) : (s.writeByte a b).drawn = s.drawn := rfl
@[simp] theorem State.writeByte_V (a : Nat) (b : Byte) (j : RegIdx) : (s.writeByte a b).V j = s.V j := rfl
@[simp] theorem State.writeByte_stackEntry (a : Nat) (b : Byte) (m : Nat) : (s.writeByte a b).stackEntry m = s.stackEntry m := rfl

/-! ## raise -/

@[simp] theorem State.raise_cfg (f : Fault) : (s.raise f).cfg = s.cfg := rfl
@[simp] theorem State.raise_v (f : Fault) : (s.raise f).v = s.v := rfl
@[simp] theorem State.raise_i (f : Fault) : (s.raise f).i = s.i := rfl
@[simp] theorem State.raise_pc (f : Fault) : (s.raise f).pc = s.pc := rfl
@[simp] theorem State.raise_dt (f : Fault) : (s.raise f).dt = s.dt := rfl
@[simp] theorem State.raise_st (f : Fault) : (s.raise f).st = s.st := rfl
@[simp] theorem State.raise_stack (f : Fault) : (s.raise f).stack = s.stack := rfl
@[simp] theorem State.raise_sp (f : Fault) : (s.raise f).sp = s.sp := rfl
@[simp] theorem State.raise_run (f : Fault) : (s.raise f).run = .faulted f := rfl
@[simp] theorem State.raise_mem (f : Fault) : (s.raise f).mem = s.mem := rfl
@[simp] theorem State.raise_boot (f : Fault) : (s.raise f).boot = s.boot := rfl
@[simp] theorem State.raise_calls (f : Fault) : (s.raise f).calls = s.calls := rfl
@[simp] theorem State.raise_inputs (f : Fault) : (s.raise f).inputs = s.inputs := rfl
@[simp] theorem State.raise_drawn (f : Fault) : (s.raise f).drawn = s.drawn := rfl
@[simp] theorem State.raise_readByte (f : Fault) (a : Nat) : (s.raise f).readByte a = s.readByte a := rfl
@[simp] theorem State.raise_V (f : Fault) (j : RegIdx) : (s.raise f).V j = s.V j := rfl
@[simp] theorem State.raise_stackEntry (f : Fault) (m : Nat) : (s.raise f).stackEntry m = s.stackEntry m := rfl

/-! ## clearScreen -/

@[simp] theorem State.clearScreen_cfg : (s.clearScreen).cfg = s.cfg := rfl
@[simp] theorem State.clearScreen_v : (s.clearScreen).v = s.v := rfl
@[simp] theorem State.clearScreen_i : (s.clearScreen).i = s.i := rfl
@[simp] theorem State.clearScreen_pc : (s.clearScreen).pc = s.pc := rfl
@[simp] theorem State.clearScreen_dt : (s.clearScreen).dt = s.dt := rfl
@[simp] theorem State.clearScreen_st : (s.clearScreen).st = s.st := rfl
@[simp] theorem State.clearScreen_stack : (s.clearScreen).stack = s.stack := rfl
@[simp] theorem State.clearScreen_sp : (s.clearScreen).sp = s.sp := rfl
@[simp] theorem State.clearScreen_run : (s.clearScreen).run = s.run := rfl
@[simp] theorem State.clearScreen_mem : (s.clearScreen).mem = s.mem := rfl
@[simp] theorem State.clearScreen_boot : (s.clearScreen).boot = s.boot := rfl
@[simp] theorem State.clearScreen_calls : (s.clearScreen).calls = .screenClear :: s.calls := rfl
@[simp] theorem State.clearScreen_inputs : (s.clearScreen).inputs = s.inputs := rfl
@[simp] theorem State.clearScreen_drawn : (s.clearScreen).drawn = s.drawn := rfl
@[simp] theorem State.clearScreen_readByte (a : Nat) : (s.clearScreen).readByte a = s.readByte a := rfl
@[simp] theorem State.clearScreen_V (j : RegIdx) : (s.clearScreen).V j = s.V j := rfl
@[simp] theorem State.clearScreen_stackEntry (m : Nat) : (s.clearScreen).stackEntry m = s.stackEntry m := rfl

/-! ## afterRandom -/

@[simp] theorem State.afterRandom_cfg : (s.afterRandom).cfg = s.cfg := rfl
@[simp] theorem State.afterRandom_v : (s.afterRandom).v = s.v := rfl
@[simp] theorem State.afterRandom_i : (s.afterRandom).i = s.i := rfl
@[simp] theorem State.afterRandom_pc : (s.afterRandom).pc = s.pc := rfl
@[simp] theorem State.afterRandom_dt : (s.afterRandom).dt = s.dt := rfl
@[simp] theorem State.afterRandom_st : (s.afterRandom).st = s.st := rfl
@[simp] theorem State.afterRandom_stack : (s.afterRandom).stack = s.stack := rfl
@[simp] theorem State.afterRandom_sp : (s.afterRandom).sp = s.sp := rfl
@[simp] theorem State.afterRandom_run : (s.afterRandom).run = s.run := rfl
@[simp] theorem State.afterRandom_mem : (s.afterRandom).mem = s.mem := rfl
@[simp] theorem State.afterRandom_boot : (s.afterRandom).boot = s.boot := rfl
@[simp] theorem State.afterRandom_calls : (s.afterRandom).calls = .rndNext :: s.calls := rfl
@[simp] theorem State.afterRandom_inputs : (s.afterRandom).inputs = { s.inputs with random := s.inputs.random.tail } := rfl
@[simp] theorem State.afterRandom_drawn : (s.afterRandom).drawn = s.drawn + 1 := rfl
@[simp] theorem State.afterRandom_readByte (a : Nat) : (s.afterRandom).readByte a = s.readByte a := rfl
@[simp] theorem State.afterRandom_V (j : RegIdx) : (s.afterRandom).V j = s.V j := rfl
@[simp] theorem State.afterRandom_stackEntry (m : Nat) : (s.afterRandom).stackEntry m = s.stackEntry m := rfl

/-! ## afterKeyDown -/

@[simp] theorem State.afterKeyDown_cfg (k : Byte) : (s.afterKeyDown k).cfg = s.cfg := rfl
@[simp] theorem State.afterKeyDown_v (k : Byte) : (s.afterKeyDown k).v = s.v := rfl
@[simp] theorem State.afterKeyDown_i (k : Byte) : (s.afterKeyDown k).i = s.i := rfl
@[simp] theorem State.afterKeyDown_pc (k : Byte) : (s.afterKeyDown k).pc = s.pc := rfl
@[simp] theorem State.afterKeyDown_dt (k : Byte) : (s.afterKeyDown k).dt = s.dt := rfl
@[simp] theorem State.afterKeyDown_st (k : Byte) : (s.afterKeyDown k).st = s.st := rfl
@[simp] theorem State.afterKeyDown_stack (k : Byte) : (s.afterKeyDown k).stack = s.stack := rfl
@[simp] theorem State.afterKeyDown_sp (k : Byte) : (s.afterKeyDown k).sp = s.sp := rfl
@[simp] theorem State.afterKeyDown_run (k : Byte) : (s.afterKeyDown k).run = s.run := rfl
@[simp] theorem State.afterKeyDown_mem (k : Byte) : (s.afterKeyDown k).mem = s.mem := rfl
@[simp] theorem State.afterKeyDown_boot (k : Byte) : (s.afterKeyDown k).boot = s.boot := rfl
@[simp] theorem State.afterKeyDown_calls (k : Byte) : (s.afterKeyDown k).calls = .keyIsDown k :: s.calls := rfl
@[simp] theorem State.afterKeyDown_inputs (k : Byte) : (s.afterKeyDown k).inputs = { s.inputs with keyDown := s.inputs.keyDown.tail } := rfl
@[simp] theorem State.afterKeyDown_drawn (k : Byte) : (s.afterKeyDown k).drawn = s.drawn + 1 := rfl
@[simp] theorem State.afterKeyDown_readByte (k : Byte) (a : Nat) : (s.afterKeyDown k).readByte a = s.readByte a := rfl
@[simp] theorem State.afterKeyDown_V (k : Byte) (j : RegIdx) : (s.afterKeyDown k).V j = s.V j := rfl
@[simp] theorem State.afterKeyDown_stackEntry (k : Byte) (m : Nat) : (s.afterKeyDown k).stackEntry m = s.stackEntry m := rfl

/-! ## afterDraw -/

@[simp] theorem State.afterDraw_cfg (x y : Byte) (bs : List Byte) (h : Nat) : (s.afterDraw x y bs h).cfg = s.cfg := rfl
@[simp] theorem State.afterDraw_v (x y : Byte) (bs : List Byte) (h : Nat) : (s.afterDraw x y bs h).v = s.v := rfl
@[simp] theorem State.afterDraw_i (x y : Byte) (bs : List Byte) (h : Nat) : (s.afterDraw x y bs h).i = s.i := rfl
@[simp] theorem State.afterDraw_pc (x y : Byte) (bs : List Byte) (h : Nat) : (s.afterDraw x y bs h).pc = s.pc := rfl
@[simp] theorem State.afterDraw_dt (x y : Byte) (bs : List Byte) (h : Nat) : (s.afterDraw x y bs h).dt = s.dt := rfl
@[simp] theorem State.afterDraw_st (x y : Byte) (bs : List Byte) (h : Nat) : (s.afterDraw x y bs h).st = s.st := rfl
@[simp] theorem State.afterDraw_stack (x y : Byte) (bs : List Byte) (h : Nat) : (s.afterDraw x y bs h).stack = s.stack := rfl
@[simp] theorem State.afterDraw_sp (x y : Byte) (bs : List Byte) (h : Nat) : (s.afterDraw x y bs h).sp = s.sp := rfl
@[simp] theorem State.afterDraw_run (x y : Byte) (bs : List Byte) (h : Nat) : (s.afterDraw x y bs h).run = s.run := rfl
@[simp] theorem State.afterDraw_mem (x y : Byte) (bs : List Byte) (h : Nat) : (s.afterDraw x y bs h).mem = s.mem := rfl
@[simp] theorem State.afterDraw_boot (x y : Byte) (bs : List Byte) (h : Nat) : (s.afterDraw x y bs h).boot = s.boot := rfl
@[simp] theorem State.afterDraw_calls (x y : Byte) (bs : List Byte) (h : Nat) : (s.afterDraw x y bs h).calls = .screenDraw x y bs h :: s.calls := rfl
@[simp] theorem State.afterDraw_inputs (x y : Byte) (bs : List Byte) (h : Nat) : (s.afterDraw x y bs h).inputs = { s.inputs with collision := s.inputs.collision.tail } := rfl
@[simp] theorem State.afterDraw_drawn (x y : Byte) (bs : List Byte) (h : Nat) : (s.afterDraw x y bs h).drawn = s.drawn + 1 := rfl
@[simp] theorem State.afterDraw_readByte (x y : Byte) (bs : List Byte) (h : Nat) (a : Nat) : (s.afterDraw x y bs h).readByte a = s.readByte a := rfl
@[simp] theorem State.afterDraw_V (x y : Byte) (bs : List Byte) (h : Nat) (j : RegIdx) : (s.afterDraw x y bs h).V j = s.V j := rfl
@[simp] theorem State.afterDraw_stackEntry (x y : Byte) (bs : List Byte) (h : Nat) (m : Nat) : (s.afterDraw x y bs h).stackEntry m = s.stackEntry m := rfl

/-! ## afterKeyPoll -/

@[simp] theorem State.afterKeyPoll_cfg : (s.afterKeyPoll).cfg = s.cfg := rfl
@[simp] theorem State.afterKeyPoll_v : (s.afterKeyPoll).v = s.v := rfl
@[simp] theorem State.afterKeyPoll_i : (s.afterKeyPoll).i = s.i := rfl
@[simp] theorem State.afterKeyPoll_pc : (s.afterKeyPoll).pc = s.pc := rfl
@[simp] theorem State.afterKeyPoll_dt : (s.afterKeyPoll).dt = s.dt := rfl
@[simp] theorem State.afterKeyPoll_st : (s.afterKeyPoll).st = s.st := rfl
@[simp] theorem State.afterKeyPoll_stack : (s.afterKeyPoll).stack = s.stack := rfl
@[simp] theorem State.afterKeyPoll_sp : (s.afterKeyPoll).sp = s.sp := rfl
@[simp] theorem State.afterKeyPoll_run : (s.afterKeyPoll).run = s.run := rfl
@[simp] theorem State.afterKeyPoll_mem : (s.afterKeyPoll).mem = s.mem := rfl
@[simp] theorem State.afterKeyPoll_boot : (s.afterKeyPoll).boot = s.boot := rfl
@[simp] theorem State.afterKeyPoll_calls : (s.afterKeyPoll).calls = s.calls := rfl
@[simp] theorem State.afterKeyPoll_inputs : (s.afterKeyPoll).inputs = { s.inputs with keyEvents := s.inputs.keyEvents.tail } := rfl
@[simp] theorem State.afterKeyPoll_drawn : (s.afterKeyPoll).drawn = s.drawn + 1 := rfl
@[simp] theorem State.afterKeyPoll_readByte (a : Nat) : (s.afterKeyPoll).readByte a = s.readByte a := rfl
@[simp] theorem State.afterKeyPoll_V (j : RegIdx) : (s.afterKeyPoll).V j = s.V j := rfl
@[simp] theorem State.afterKeyPoll_stackEntry (m : Nat) : (s.afterKeyPoll).stackEntry m = s.stackEntry m := rfl

/-! ## afterKeyEvent -/

@[simp] theorem State.afterKeyEvent_cfg (r : Nat) : (s.afterKeyEvent r).cfg = s.cfg := rfl
@[simp] theorem State.afterKeyEvent_v (r : Nat) : (s.afterKeyEvent r).v = s.v := rfl
@[simp] theorem State.afterKeyEvent_i (r : Nat) : (s.afterKeyEvent r).i = s.i := rfl
@[simp] theorem State.afterKeyEvent_pc (r : Nat) : (s.afterKeyEvent r).pc = s.pc := rfl
@[simp] theorem State.afterKeyEvent_dt (r : Nat) : (s.afterKeyEvent r).dt = s.dt := rfl
@[simp] theorem State.afterKeyEvent_st (r : Nat) : (s.afterKeyEvent r).st = s.st := rfl
@[simp] theorem State.afterKeyEvent_stack (r : Nat) : (s.afterKeyEvent r).stack = s.stack := rfl
@[simp] theorem State.afterKeyEvent_sp (r : Nat) : (s.afterKeyEvent r).sp = s.sp := rfl
@[simp] theorem State.afterKeyEvent_run (r : Nat) : (s.afterKeyEvent r).run = s.run := rfl
@[simp] theorem State.afterKeyEvent_mem (r : Nat) : (s.afterKeyEvent r).mem = s.mem := rfl
@[simp] theorem State.afterKeyEvent_boot (r : Nat) : (s.afterKeyEvent r).boot = s.boot := rfl
@[simp] theorem State.afterKeyEvent_calls (r : Nat) : (s.afterKeyEvent r).calls = .keyMap r :: .hostNextKeyDown :: s.calls := rfl
@[simp] theorem State.afterKeyEvent_inputs (r : Nat) : (s.afterKeyEvent r).inputs = { s.inputs with keyEvents := s.inputs.keyEvents.tail } := rfl
@[simp] theorem State.afterKeyEvent_drawn (r : Nat) : (s.afterKeyEvent r).drawn = s.drawn + 1 := rfl
@[simp] theorem State.afterKeyEvent_readByte (r : Nat) (a : Nat) : (s.afterKeyEvent r).readByte a = s.readByte a := rfl
@[simp] theorem State.afterKeyEvent_V (r : Nat) (j : RegIdx) : (s.afterKeyEvent r).V j = s.V j := rfl
@[simp] theorem State.afterKeyEvent_stackEntry (r : Nat) (m : Nat) : (s.afterKeyEvent r).stackEntry m = s.stackEntry m := rfl

/-! ## tick -/

@[simp] theorem State.tick_cfg : (s.tick).cfg = s.cfg := rfl
@[simp] theorem State.tick_v : (s.tick).v = s.v := rfl
@[simp] theorem State.tick_i : (s.tick).i = s.i := rfl
@[simp] theorem State.tick_pc : (s.tick).pc = s.pc := rfl
@[simp] theorem State.tick_dt : (s.tick).dt = tickByte s.dt := rfl
@[simp] theorem State.tick_st : (s.tick).st = tickByte s.st := rfl
@[simp] theorem State.tick_stack : (s.tick).stack = s.stack := rfl
@[simp] theorem State.tick_sp : (s.tick).sp = s.sp := rfl
@[simp] theorem State.tick_run : (s.tick).run = s.run := rfl
@[simp] theorem State.tick_mem : (s.tick).mem = s.mem := rfl
@[simp] theorem State.tick_boot : (s.tick).boot = s.boot := rfl
@[simp] theorem State.tick_calls : (s.tick).calls = s.calls := rfl
@[simp] theorem State.tick_inputs : (s.tick).inputs = s.inputs := rfl
@[simp] theorem State.tick_drawn : (s.tick).drawn = s.drawn := rfl
@[simp] theorem State.tick_readByte (a : Nat) : (s.tick).readByte a = s.readByte a := rfl
@[simp] theorem State.tick_V (j : RegIdx) : (s.tick).V j = s.V j := rfl
@[simp] theorem State.tick_stackEntry (m : Nat) : (s.tick).stackEntry m = s.stackEntry m := rfl

/-! ## advance -/

@[simp] theorem State.advance_cfg : (s.advance).cfg = s.cfg := rfl
@[simp] theorem State.advance_v : (s.advance).v = s.v := rfl
@[simp] theorem State.advance_i : (s.advance).i = s.i := rfl
@[simp] theorem State.advance_pc : (s.advance).pc = s.pc + 2#16 := rfl
@[simp] theorem State.advance_dt : (s.advance).dt = s.dt := rfl
@[simp] theorem State.advance_st : (s.advance).st = s.st := rfl
@[simp] theorem State.advance_stack : (s.advance).stack = s.stack := rfl
@[simp] theorem State.advance_sp : (s.advance).sp = s.sp := rfl
@[simp] theorem State.advance_run : (s.advance).run = s.run := rfl
@[simp] theorem State.advance_mem : (s.advance).mem = s.mem := rfl
@[simp] theorem State.advance_boot : (s.advance).boot = s.boot := rfl
@[simp] theorem State.advance_calls : (s.advance).calls = s.calls := rfl
@[simp] theorem State.advance_inputs : (s.advance).inputs = s.inputs := rfl
@[simp] theorem State.advance_drawn : (s.advance).drawn = s.drawn := rfl
@[simp] theorem State.advance_readByte (a : Nat) : (s.advance).readByte a = s.readByte a := rfl
@[simp] theorem State.advance_V (j : RegIdx) : (s.advance).V j = s.V j := rfl
@[simp] theorem State.advance_stackEntry (m : Nat) : (s.advance).stackEntry m = s.stackEntry m := rfl

/-! ## Register reads after a register write -/

@[simp] theorem State.setV_V_self (x : RegIdx) (b : Byte) : (s.setV x b).V x = b := by
  simp [State.V, State.setV]

theorem State.setV_V_ne {x j : RegIdx} (b : Byte) (h : j ≠ x) : (s.setV x b).V j = s.V j := by
  have h' : x.toNat ≠ j.toNat := fun e => h (BitVec.eq_of_toNat_eq e.symm)
  simp [State.V, State.setV, Vector.getElem_set_ne, h']

theorem State.setV_V (x j : RegIdx) (b : Byte) : (s.setV x b).V j = if j = x then b else s.V j := by
  split
  · subst_vars; simp
  · exact State.setV_V_ne s b ‹_›

/-- A register write changes the registers and nothing else. -/
theorem State.setV_eq (x : RegIdx) (b : Byte) : s.setV x b = { s with v := (s.setV x b).v } := rfl

/-- Two register files are equal when every register reads the same. -/
theorem State.v_ext {s t : State} (h : ∀ j, t.V j = s.V j) : t.v = s.v := by
  refine Vector.ext fun k hk => ?_
  have := h (BitVec.ofNat 4 k)
  simpa [State.V, Nat.mod_eq_of_lt hk] using this

end Sys2Proof.Machine
end

