-- ==== Sys2Proof/Laws/Decode.lean ====
section
/-! SUPPORT. Words and their fields as numbers: each field of a word built from a format is what was put there, and a
word is put together again from its fields. -/

namespace Sys2Proof

/-! ## Fields and formats as numbers (00_scope.md R7) -/

theorem append_toNat {v w : Nat} (a : BitVec v) (b : BitVec w) : (a ++ b).toNat = a.toNat * 2 ^ w + b.toNat := by
  rw [BitVec.toNat_append, ← Nat.shiftLeft_add_eq_or_of_lt b.isLt, Nat.shiftLeft_eq]

section
variable (op : Word)

theorem opHigh_toNat : (opHigh op).toNat = op.toNat / 4096 := by
  have := op.isLt
  simp only [opHigh, BitVec.extractLsb'_toNat, Nat.shiftRight_eq_div_pow]
  omega
theorem opX_toNat : (opX op).toNat = op.toNat / 256 % 16 := by
  simp only [opX, BitVec.extractLsb'_toNat, Nat.shiftRight_eq_div_pow]
theorem opY_toNat : (opY op).toNat = op.toNat / 16 % 16 := by
  simp only [opY, BitVec.extractLsb'_toNat, Nat.shiftRight_eq_div_pow]
theorem opN_toNat : (opN op).toNat = op.toNat % 16 := by simp [opN, BitVec.extractLsb'_toNat]
theorem opKk_toNat : (opKk op).toNat = op.toNat % 256 := by simp [opKk, BitVec.extractLsb'_toNat]
theorem opNnn_toNat : (opNnn op).toNat = op.toNat % 4096 := by simp [opNnn, BitVec.extractLsb'_toNat]
theorem highByte_toNat : (highByte op).toNat = op.toNat / 256 := by
  have := op.isLt
  simp only [highByte, BitVec.extractLsb'_toNat, Nat.shiftRight_eq_div_pow]
  omega
theorem lowByte_toNat : (lowByte op).toNat = op.toNat % 256 := by simp [lowByte, BitVec.extractLsb'_toNat]

end

section
variable (h : BitVec 4) (x y : RegIdx) (n : Nibble) (kk : Byte) (nnn : Addr)

theorem formatA_toNat : (formatA h nnn).toNat = h.toNat * 4096 + nnn.toNat := append_toNat h nnn
theorem formatXK_toNat : (formatXK h x kk).toNat = (h.toNat * 16 + x.toNat) * 256 + kk.toNat := by
  have e1 := append_toNat (h ++ x) kk
  rw [append_toNat h x] at e1
  exact e1
theorem formatXYN_toNat :
    (formatXYN h x y n).toNat = ((h.toNat * 16 + x.toNat) * 16 + y.toNat) * 16 + n.toNat := by
  have e1 := append_toNat (h ++ x ++ y) n
  rw [append_toNat (h ++ x) y, append_toNat h x] at e1
  exact e1
theorem joinBytes_toNat (hi lo : Byte) : (joinBytes hi lo).toNat = hi.toNat * 256 + lo.toNat := append_toNat hi lo

/-! ## The fields of a format are what was put there -/

@[simp] theorem opHigh_formatA : opHigh (formatA h nnn) = h := by
  apply BitVec.eq_of_toNat_eq; rw [opHigh_toNat, formatA_toNat]; have := nnn.isLt; omega
@[simp] theorem opNnn_formatA : opNnn (formatA h nnn) = nnn := by
  apply BitVec.eq_of_toNat_eq; rw [opNnn_toNat, formatA_toNat]; have := nnn.isLt; omega
@[simp] theorem opHigh_formatXK : opHigh (formatXK h x kk) = h := by
  apply BitVec.eq_of_toNat_eq; rw [opHigh_toNat, formatXK_toNat]; have := x.isLt; have := kk.isLt; omega
@[simp] theorem opX_formatXK : opX (formatXK h x kk) = x := by
  apply BitVec.eq_of_toNat_eq; rw [opX_toNat, formatXK_toNat]; have := x.isLt; have := kk.isLt; omega
@[simp] theorem opKk_formatXK : opKk (formatXK h x kk) = kk := by
  apply BitVec.eq_of_toNat_eq; rw [opKk_toNat, formatXK_toNat]; have := kk.isLt; omega
@[simp] theorem opHigh_formatXYN : opHigh (formatXYN h x y n) = h := by
  apply BitVec.eq_of_toNat_eq; rw [opHigh_toNat, formatXYN_toNat]
  have := x.isLt; have := y.isLt; have := n.isLt; omega
@[simp] theorem opX_formatXYN : opX (formatXYN h x y n) = x := by
  apply BitVec.eq_of_toNat_eq; rw [opX_toNat, formatXYN_toNat]
  have := x.isLt; have := y.isLt; have := n.isLt; omega
@[simp] theorem opY_formatXYN : opY (formatXYN h x y n) = y := by
  apply BitVec.eq_of_toNat_eq; rw [opY_toNat, formatXYN_toNat]; have := y.isLt; have := n.isLt; omega
@[simp] theorem opN_formatXYN : opN (formatXYN h x y n) = n := by
  apply BitVec.eq_of_toNat_eq; rw [opN_toNat, formatXYN_toNat]; have := n.isLt; omega

end

/-! ## A word is its fields -/

section
variable (op : Word)

theorem formatA_fields : formatA (opHigh op) (opNnn op) = op := by
  apply BitVec.eq_of_toNat_eq; rw [formatA_toNat, opHigh_toNat, opNnn_toNat]; omega
theorem formatXK_fields : formatXK (opHigh op) (opX op) (opKk op) = op := by
  apply BitVec.eq_of_toNat_eq; rw [formatXK_toNat, opHigh_toNat, opX_toNat, opKk_toNat]; omega
theorem formatXYN_fields : formatXYN (opHigh op) (opX op) (opY op) (opN op) = op := by
  apply BitVec.eq_of_toNat_eq; rw [formatXYN_toNat, opHigh_toNat, opX_toNat, opY_toNat, opN_toNat]; omega
/-- The two bytes of a word assemble back to it (20_memory.md R53). -/
@[simp] theorem joinBytes_bytes : joinBytes (highByte op) (lowByte op) = op := by
  apply BitVec.eq_of_toNat_eq; rw [joinBytes_toNat, highByte_toNat, lowByte_toNat]; omega

end

/-! ## Masks of the opcode table (spec/opcode_table.json) -/

section
variable (op : Word)

theorem and_allOnes4 (a : BitVec 4) : a &&& 0xF#4 = a := BitVec.and_allOnes

theorem append_and {v w : Nat} (a c : BitVec v) (b d : BitVec w) : (a ++ b) &&& (c ++ d) = (a &&& c) ++ (b &&& d) :=
  BitVec.and_append

theorem formatXYN_and (h x y n h' x' y' n' : BitVec 4) :
    formatXYN h x y n &&& formatXYN h' x' y' n' = formatXYN (h &&& h') (x &&& x') (y &&& y') (n &&& n') := by
  have e := append_and (h ++ x ++ y) (h' ++ x' ++ y') n n'
  rw [append_and (h ++ x) (h' ++ x') y y', append_and h h' x x'] at e
  exact e

theorem formatXK_and (h x h' x' : BitVec 4) (kk kk' : Byte) :
    formatXK h x kk &&& formatXK h' x' kk' = formatXK (h &&& h') (x &&& x') (kk &&& kk') := by
  have e := append_and (h ++ x) (h' ++ x') kk kk'
  rw [append_and h h' x x'] at e
  exact e

theorem formatXYN_inj {h x y n h' x' y' n' : BitVec 4} :
    formatXYN h x y n = formatXYN h' x' y' n' ↔ h = h' ∧ x = x' ∧ y = y' ∧ n = n' := by
  refine ⟨fun e => ⟨?_, ?_, ?_, ?_⟩, by rintro ⟨rfl, rfl, rfl, rfl⟩; rfl⟩
  · simpa using congrArg opHigh e
  · simpa using congrArg opX e
  · simpa using congrArg opY e
  · simpa using congrArg opN e

theorem formatXK_inj {h x h' x' : BitVec 4} {kk kk' : Byte} :
    formatXK h x kk = formatXK h' x' kk' ↔ h = h' ∧ x = x' ∧ kk = kk' := by
  refine ⟨fun e => ⟨?_, ?_, ?_⟩, by rintro ⟨rfl, rfl, rfl⟩; rfl⟩
  · simpa using congrArg opHigh e
  · simpa using congrArg opX e
  · simpa using congrArg opKk e

/-- A row that fixes the high nibble. -/
theorem and_high_eq (v : BitVec 4) : op &&& 0xF000#16 = formatXYN v 0#4 0#4 0#4 ↔ opHigh op = v := by
  rw [← formatXYN_fields op, show 0xF000#16 = formatXYN 0xF#4 0#4 0#4 0#4 by decide, formatXYN_and, formatXYN_inj]
  simp [and_allOnes4]

/-- A row that fixes the high and the low nibble. -/
theorem and_high_low_eq (v n : BitVec 4) :
    op &&& 0xF00F#16 = formatXYN v 0#4 0#4 n ↔ opHigh op = v ∧ opN op = n := by
  rw [← formatXYN_fields op, show 0xF00F#16 = formatXYN 0xF#4 0#4 0#4 0xF#4 by decide, formatXYN_and, formatXYN_inj]
  simp [and_allOnes4]

/-- A row that fixes the high nibble and the low byte. -/
theorem and_high_byte_eq (v : BitVec 4) (k : Byte) :
    op &&& 0xF0FF#16 = formatXK v 0#4 k ↔ opHigh op = v ∧ opKk op = k := by
  rw [← formatXK_fields op, show 0xF0FF#16 = formatXK 0xF#4 0#4 0xFF#8 by decide, formatXK_and, formatXK_inj,
    show (0xFF#8 : Byte) = BitVec.allOnes 8 by decide, BitVec.and_allOnes]
  simp [and_allOnes4]

/-- A row that fixes every bit. -/
theorem and_all_eq (v : Word) : op &&& 0xFFFF#16 = v ↔ op = v := by
  rw [show (0xFFFF#16 : Word) = BitVec.allOnes 16 by decide, BitVec.and_allOnes]

/-- Clearing the low nibble, which groups 5 and 9 do not examine (30_encoding.md R79). -/
theorem and_clear_low : op &&& 0xFFF0#16 = formatXYN (opHigh op) (opX op) (opY op) 0#4 := by
  conv_lhs => rw [← formatXYN_fields op, show 0xFFF0#16 = formatXYN 0xF#4 0xF#4 0xF#4 0#4 by decide, formatXYN_and]
  simp [and_allOnes4]

end

/-! ## The Primary Dispatcher forwards every word with a high nibble other than 0 -/

theorem decode_of_high {op : Word} (h : opHigh op ≠ 0x0#4) : decode op = decodeExtended op := by
  have h1 : op ≠ 0x00E0#16 := by rintro rfl; exact h (by decide)
  have h2 : op ≠ 0x00EE#16 := by rintro rfl; exact h (by decide)
  rw [decode, if_neg h1, if_neg h2]

/-- Two bytes decode as the word they assemble to, and leave the bytes after them. -/
theorem decodeBytes_cons (hi lo : Byte) (rest : List Byte) :
    decodeBytes (hi :: lo :: rest) = (decode (joinBytes hi lo)).map fun i => (i, rest) := rfl

end Sys2Proof
end

