-- ==== Sys2Proof/Laws/Memory.lean ====
section
/-! SUPPORT. The laws of sparse storage (a read after a write, and that a write keeps the canonical form) and what
they give for memory and for the call-stack storage. -/

namespace Sys2Proof.Machine

section
variable {α : Type} [DecidableEq α] {d : Nat → α}

omit [DecidableEq α] in
@[simp] theorem Sparse.get_nil (a : Nat) : Sparse.get d [] a = d a := rfl

theorem Sparse.wf_cons {lo hi k : Nat} {w : α} {m : List (Nat × α)} :
    Sparse.wf d lo hi ((k, w) :: m) = true ↔ (lo ≤ k ∧ k < hi ∧ w ≠ d k) ∧ Sparse.wf d (k + 1) hi m = true := by
  simp [Sparse.wf, and_assoc]

/-- The lower bound of a canonical form may be lowered. -/
theorem Sparse.wf_mono {lo lo' hi : Nat} {m : List (Nat × α)} (h : lo' ≤ lo) (hm : Sparse.wf d lo hi m = true) :
    Sparse.wf d lo' hi m = true := by
  cases m with
  | nil => rfl
  | cons e m =>
    obtain ⟨⟨h1, h2⟩, h3⟩ := Sparse.wf_cons.mp hm
    exact Sparse.wf_cons.mpr ⟨⟨le_trans h h1, h2⟩, h3⟩

/-- A key below every listed key reads as an unlisted one. -/
theorem Sparse.get_of_lt {hi : Nat} : ∀ {m : List (Nat × α)} {lo a : Nat}, Sparse.wf d lo hi m = true → a < lo →
    Sparse.get d m a = d a
  | [], _, _, _, _ => rfl
  | (k, w) :: m, lo, a, hm, ha => by
    obtain ⟨hk, hm⟩ := Sparse.wf_cons.mp hm
    rw [Sparse.get, if_neg (by omega)]
    exact Sparse.get_of_lt hm (by omega)

/-- A write keeps the canonical form. -/
theorem Sparse.wf_set {hi a : Nat} (w : α) : ∀ {m : List (Nat × α)} {lo : Nat}, Sparse.wf d lo hi m = true → lo ≤ a →
    a < hi → Sparse.wf d lo hi (Sparse.set d m a w) = true
  | [], lo, _, hl, hh => by
    rw [Sparse.set]
    split
    · rfl
    · exact Sparse.wf_cons.mpr ⟨⟨hl, hh, ‹_›⟩, rfl⟩
  | (k, u) :: m, lo, hm, hl, hh => by
    obtain ⟨⟨hk, hk', hu⟩, hm'⟩ := Sparse.wf_cons.mp hm
    rw [Sparse.set]
    split_ifs with h1 h2 h3 h4
    · exact hm
    · exact Sparse.wf_cons.mpr ⟨⟨hl, hh, h2⟩, Sparse.wf_cons.mpr ⟨⟨h1, hk', hu⟩, hm'⟩⟩
    · exact Sparse.wf_mono (by omega) hm'
    · exact Sparse.wf_cons.mpr ⟨⟨hl, hh, h4⟩, Sparse.wf_mono (by omega) hm'⟩
    · exact Sparse.wf_cons.mpr ⟨⟨hk, hk', hu⟩, Sparse.wf_set w hm' (by omega) hh⟩

/-- A read after a write to the same key gives the value written. -/
theorem Sparse.get_set_self {hi a : Nat} (w : α) : ∀ {m : List (Nat × α)} {lo : Nat}, Sparse.wf d lo hi m = true →
    Sparse.get d (Sparse.set d m a w) a = w
  | [], _, _ => by rw [Sparse.set]; split <;> simp_all [Sparse.get]
  | (k, u) :: m, lo, hm => by
    obtain ⟨_, hm'⟩ := Sparse.wf_cons.mp hm
    rw [Sparse.set]
    split_ifs with h1 h2 h3 h4
    · rw [Sparse.get, if_neg (by omega), Sparse.get_of_lt hm' (by omega), h2]
    · simp [Sparse.get]
    · rw [Sparse.get_of_lt hm' (by omega), h4]
    · simp [Sparse.get]
    · rw [Sparse.get, if_neg h3]
      exact Sparse.get_set_self w hm'

/-- A write leaves every other key alone. -/
theorem Sparse.get_set_ne {a b : Nat} (w : α) (hab : b ≠ a) : ∀ m : List (Nat × α),
    Sparse.get d (Sparse.set d m a w) b = Sparse.get d m b
  | [] => by rw [Sparse.set]; split <;> simp [Sparse.get, hab]
  | (k, u) :: m => by
    rw [Sparse.set]
    split_ifs with h1 h2 h3 h4
    · rfl
    · simp [Sparse.get, hab]
    · subst h3; simp [Sparse.get, hab]
    · subst h3; simp [Sparse.get, hab]
    · simp [Sparse.get, Sparse.get_set_ne w hab m]

/-- Two canonical forms that read alike are the same list. -/
theorem Sparse.ext {hi : Nat} : ∀ {m n : List (Nat × α)} {lo : Nat}, Sparse.wf d lo hi m = true →
    Sparse.wf d lo hi n = true → (∀ a, Sparse.get d m a = Sparse.get d n a) → m = n
  | [], [], _, _, _, _ => rfl
  | [], (k, w) :: n, _, _, hn, h => by
    have := h k
    simp only [Sparse.get, if_pos] at this
    exact absurd this.symm (Sparse.wf_cons.mp hn).1.2.2
  | (k, w) :: m, [], _, hm, _, h => by
    have := h k
    simp only [Sparse.get, if_pos] at this
    exact absurd this (Sparse.wf_cons.mp hm).1.2.2
  | (k, w) :: m, (l, u) :: n, lo, hm, hn, h => by
    obtain ⟨⟨_, _, hw⟩, hm'⟩ := Sparse.wf_cons.mp hm
    obtain ⟨⟨_, _, hu⟩, hn'⟩ := Sparse.wf_cons.mp hn
    have hkl : k = l := by
      rcases Nat.lt_trichotomy k l with hlt | heq | hgt
      · have := h k
        rw [Sparse.get, if_pos rfl, Sparse.get, if_neg (by omega), Sparse.get_of_lt hn' (by omega)] at this
        exact absurd this hw
      · exact heq
      · have := h l
        rw [Sparse.get, if_neg (by omega), Sparse.get_of_lt hm' (by omega), Sparse.get, if_pos rfl] at this
        exact absurd this.symm hu
    subst hkl
    have hwu : w = u := by simpa [Sparse.get] using h k
    subst hwu
    have hmn : m = n := Sparse.ext hm' hn' fun a => by
      by_cases ha : a = k
      · subst ha
        rw [Sparse.get_of_lt hm' (by omega), Sparse.get_of_lt hn' (by omega)]
      · simpa [Sparse.get, ha] using h a
    rw [hmn]

end

/-! ## Memory -/

variable {s : State}

/-- A read after a write to the same address gives the byte written (20_memory.md R56). -/
theorem State.readByte_writeByte_self (hs : Memory.wf s.cfg s.mem = true) (a : Nat) (b : Byte) :
    (s.writeByte a b).readByte a = b := Sparse.get_set_self b hs

/-- A write changes the byte at its address only (20_memory.md R56). -/
theorem State.readByte_writeByte_ne {a a' : Nat} (h : a' ≠ a) (b : Byte) :
    (s.writeByte a b).readByte a' = s.readByte a' := Sparse.get_set_ne b h _

/-- Writing a byte at an address that exists keeps the canonical form. -/
theorem State.writeByte_wf (hs : Memory.wf s.cfg s.mem = true) {a : Nat} (ha : a < memSize) (b : Byte) :
    Memory.wf (s.writeByte a b).cfg (s.writeByte a b).mem = true := Sparse.wf_set b hs (Nat.zero_le a) ha

/-- Nothing listed reads as FONT_DATA and zeros (70_reset_and_hazards.md R230). -/
theorem Memory.wf_nil (c : Config) : Memory.wf c [] = true := rfl

/-! ## Ascending writes and reads -/

@[simp] theorem State.writeBytes_nil (base : Nat) : s.writeBytes base [] = s := rfl

@[simp] theorem State.writeBytes_cons (base : Nat) (b : Byte) (bs : List Byte) :
    s.writeBytes base (b :: bs) = (s.writeByte base b).writeBytes (base + 1) bs := rfl

/-- Writing bytes changes memory and nothing else. -/
theorem State.writeBytes_eq (base : Nat) (bs : List Byte) :
    s.writeBytes base bs = { s with mem := (s.writeBytes base bs).mem } := by
  induction bs generalizing s base with
  | nil => rfl
  | cons b bs ih => rw [State.writeBytes_cons, ih]; rfl

@[simp] theorem State.writeBytes_cfg (base : Nat) (bs : List Byte) : (s.writeBytes base bs).cfg = s.cfg := by
  rw [State.writeBytes_eq]

/-- Writing bytes leaves every address outside them alone. -/
theorem State.readByte_writeBytes_outside {base a : Nat} {bs : List Byte} (h : a < base ∨ base + bs.length ≤ a) :
    (s.writeBytes base bs).readByte a = s.readByte a := by
  induction bs generalizing s base with
  | nil => rfl
  | cons b bs ih =>
    simp only [List.length_cons] at h
    rw [State.writeBytes_cons, ih (by omega), State.readByte_writeByte_ne (by omega)]

/-- Writing bytes at addresses that exist keeps the canonical form. -/
theorem State.writeBytes_wf {base : Nat} {bs : List Byte} (hs : Memory.wf s.cfg s.mem = true)
    (h : base + bs.length ≤ memSize) : Memory.wf s.cfg (s.writeBytes base bs).mem = true := by
  induction bs generalizing s base with
  | nil => exact hs
  | cons b bs ih =>
    simp only [List.length_cons] at h
    exact ih (s := s.writeByte base b) (State.writeByte_wf hs (by omega) b) (by omega)

/-- The k-th of the bytes written is read back at `base + k`. -/
theorem State.readByte_writeBytes_inside {base k : Nat} {bs : List Byte} (hs : Memory.wf s.cfg s.mem = true)
    (h : base + bs.length ≤ memSize) (hk : k < bs.length) : (s.writeBytes base bs).readByte (base + k) = bs[k] := by
  induction bs generalizing s base k with
  | nil => simp at hk
  | cons b bs ih =>
    simp only [List.length_cons] at h hk
    rw [State.writeBytes_cons]
    cases k with
    | zero =>
      rw [State.readByte_writeBytes_outside (by omega)]
      simpa using State.readByte_writeByte_self hs base b
    | succ k =>
      have := ih (s := s.writeByte base b) (base := base + 1) (k := k) (State.writeByte_wf hs (by omega) b) (by omega)
        (by omega)
      simpa [Nat.add_assoc, Nat.add_comm 1 k] using this

@[simp] theorem State.readBytes_length (base len : Nat) : (s.readBytes base len).length = len := by
  induction len generalizing base with
  | zero => rfl
  | succ len ih => simp [State.readBytes, ih]

/-- The k-th byte read is the byte at `base + k`. -/
theorem State.readBytes_getElem {base len k : Nat} (hk : k < len) :
    (s.readBytes base len)[k]'(by simpa using hk) = s.readByte (base + k) := by
  induction len generalizing base k with
  | zero => omega
  | succ len ih =>
    cases k with
    | zero => rfl
    | succ k =>
      simp only [State.readBytes, List.getElem_cons_succ]
      rw [ih (by omega)]
      congr 1
      omega

/-- Reading back what was just written gives it. -/
theorem State.readBytes_writeBytes {base : Nat} {bs : List Byte} (hs : Memory.wf s.cfg s.mem = true)
    (h : base + bs.length ≤ memSize) : (s.writeBytes base bs).readBytes base bs.length = bs := by
  refine List.ext_getElem (by simp) fun k hk _ => ?_
  simp only [State.readBytes_length] at hk
  rw [State.readBytes_getElem hk, State.readByte_writeBytes_inside hs h hk]

end Sys2Proof.Machine
end

