-- ==== Sys2Proof/Laws/Ops.lean ====
section
/-! SUPPORT. One spec lemma per shared operation: everything it can do, for the proofs about the instructions that
call it. -/

namespace Sys2Proof.Machine

variable (s : State)

/-! ## Address ranges (20_memory.md R52, R55) -/

theorem firstOutOfRange_eq_none {base len : Nat} :
    firstOutOfRange base len = none ↔ len = 0 ∨ base + len ≤ memSize := by
  unfold firstOutOfRange; split <;> simp_all

theorem firstOutOfRange_eq_some {base len a : Nat} :
    firstOutOfRange base len = some a ↔ (len ≠ 0 ∧ memSize < base + len) ∧ a = max base memSize := by
  unfold firstOutOfRange
  split
  · simp; omega
  · simp [eq_comm]; omega

/-- The address found does not exist, is one of those accessed, and every lower one of those exists. -/
theorem firstOutOfRange_lowest {base len a : Nat} (h : firstOutOfRange base len = some a) :
    memSize ≤ a ∧ base ≤ a ∧ a < base + len ∧ ∀ b, base ≤ b → b < a → b < memSize := by
  obtain ⟨⟨h1, h2⟩, rfl⟩ := firstOutOfRange_eq_some.mp h
  exact ⟨by omega, by omega, by omega, by omega⟩

/-- An instruction's accesses are all performed, or none is and `MEM_RANGE` is raised. -/
theorem State.withRange_cases (i : Instr) (base len : Nat) (k : State) :
    ((len = 0 ∨ base + len ≤ memSize) ∧ s.withRange i base len k = k) ∨
    ((len ≠ 0 ∧ memSize < base + len) ∧ s.withRange i base len k =
      s.raise (.memRange (max base memSize) s.instrAddr (some (encode i)))) := by
  unfold State.withRange
  cases h : firstOutOfRange base len with
  | none => exact .inl ⟨firstOutOfRange_eq_none.mp h, rfl⟩
  | some a =>
    obtain ⟨h1, rfl⟩ := firstOutOfRange_eq_some.mp h
    exact .inr ⟨h1, rfl⟩

theorem State.withRange_in {i : Instr} {base len : Nat} {k : State} (h : len = 0 ∨ base + len ≤ memSize) :
    s.withRange i base len k = k := by
  rw [State.withRange, firstOutOfRange_eq_none.mpr h]

theorem State.withRange_out {i : Instr} {base len : Nat} {k : State} (h : len ≠ 0 ∧ memSize < base + len) :
    s.withRange i base len k = s.raise (.memRange (max base memSize) s.instrAddr (some (encode i))) := by
  rw [State.withRange, firstOutOfRange_eq_some.mpr ⟨h, rfl⟩]

/-- The base of an I-relative access is I. -/
theorem State.baseAddr_eq : s.baseAddr = s.i.toNat := rfl

/-- `V0..Vx` are x + 1 bytes. -/
theorem blockLen_eq (x : RegIdx) : blockLen x = x.toNat + 1 := rfl

/-- The bytes read are those at `base, base + 1, ...`. -/
theorem State.readBytes_eq_map (base len : Nat) :
    s.readBytes base len = (List.range len).map fun k => s.readByte (base + k) := by
  refine List.ext_getElem (by simp) fun k h1 _ => ?_
  rw [State.readBytes_getElem (by simpa using h1)]
  simp

/-! ## The call stack (41_extended.md R110, R111) -/

theorem State.push_full {w : Word} (h : s.sp = s.cfg.stackDepth) : s.push w = none := if_pos h

theorem State.push_room {w : Word} (h : s.sp ≠ s.cfg.stackDepth) :
    s.push w = some { s with stack := Sparse.set StackStore.unlisted s.stack s.sp w, sp := s.sp + 1 } := if_neg h

theorem State.pop_empty (h : s.sp = 0) : s.pop = none := by simp [State.pop, h]

theorem State.pop_held {n : Nat} (h : s.sp = n + 1) : s.pop = some (s.stackEntry n, { s with sp := n }) := by
  simp [State.pop, h]

/-! ## Skips (41_extended.md R112) -/

/-- A skip changes PC at most. -/
theorem State.skipIf_eq (b : Bool) : s.skipIf b = s.setPc (if b then s.pc + 2#16 else s.pc) := by
  cases b <;> rfl

/-! ## Register blocks (43_io.md R179, R180) -/

@[simp] theorem State.regsFrom_length (k len : Nat) : (s.regsFrom k len).length = len := by
  induction len generalizing k with
  | zero => rfl
  | succ len ih => simp [State.regsFrom, ih]

theorem State.regsFrom_getElem {k len j : Nat} (h : j < len) :
    (s.regsFrom k len)[j]'(by simpa using h) = s.V (BitVec.ofNat 4 (k + j)) := by
  induction len generalizing k j with
  | zero => omega
  | succ len ih =>
    cases j with
    | zero => rfl
    | succ j =>
      simp only [State.regsFrom, List.getElem_cons_succ]
      rw [ih (by omega)]
      congr 2
      omega

/-- Loading registers changes the registers and nothing else. -/
theorem State.loadRegsFrom_eq (k : Nat) (bs : List Byte) :
    s.loadRegsFrom k bs = { s with v := (s.loadRegsFrom k bs).v } := by
  induction bs generalizing s k with
  | nil => rfl
  | cons b bs ih => rw [State.loadRegsFrom, ih]; rfl

/-- Registers outside those loaded keep their values. -/
theorem State.loadRegsFrom_outside {k : Nat} {bs : List Byte} {j : RegIdx} (hk : k + bs.length ≤ 16)
    (h : j.toNat < k ∨ k + bs.length ≤ j.toNat) : (s.loadRegsFrom k bs).V j = s.V j := by
  induction bs generalizing s k with
  | nil => rfl
  | cons b bs ih =>
    simp only [List.length_cons] at h hk
    rw [State.loadRegsFrom, ih _ (by omega) (by omega), State.setV_V_ne]
    rintro rfl
    simp only [BitVec.toNat_ofNat] at h
    omega

/-- The registers loaded hold the values loaded, in order. -/
theorem State.loadRegsFrom_inside {k n : Nat} {bs : List Byte} (hk : k + bs.length ≤ 16) (hn : n < bs.length) :
    (s.loadRegsFrom k bs).V (BitVec.ofNat 4 (k + n)) = bs[n] := by
  induction bs generalizing s k n with
  | nil => simp at hn
  | cons b bs ih =>
    simp only [List.length_cons] at hk hn
    rw [State.loadRegsFrom]
    cases n with
    | zero =>
      rw [State.loadRegsFrom_outside _ (by omega) (by simp only [BitVec.toNat_ofNat]; omega)]
      simp
    | succ n =>
      have := ih (s.setV (BitVec.ofNat 4 k) b) (k := k + 1) (n := n) (by omega) (by omega)
      simpa [Nat.add_assoc, Nat.add_comm 1 n] using this

/-! ## Flag-writing operations of the ALU group (42_alu.md R150) -/

/-- V[x] takes the result, VF the flag where x is not F, every other register keeps its value. -/
theorem State.aluFlagged_V (flag result : Byte → Byte → Byte) (x y j : RegIdx) :
    (s.aluFlagged flag result x y).V j =
      if j = x then result (s.operandAfterFlag (flag (s.V x) (s.V y)) x)
        (s.operandAfterFlag (flag (s.V x) (s.V y)) y)
      else if j = regF then flag (s.V x) (s.V y) else s.V j := by
  unfold State.aluFlagged State.operandAfterFlag
  cases s.cfg.aluAliasMode <;> simp [State.setV_V]

/-- A flag-writing operation changes the registers and nothing else. -/
theorem State.aluFlagged_eq (flag result : Byte → Byte → Byte) (x y : RegIdx) :
    s.aluFlagged flag result x y = { s with v := (s.aluFlagged flag result x y).v } := by
  unfold State.aluFlagged
  cases s.cfg.aluAliasMode <;> rfl

/-! ## Draws -/

/-- A draw changes VF, the record of calls and the model's own fields. -/
theorem State.drawSprite_V (x y : RegIdx) (n : Nibble) (j : RegIdx) :
    (s.drawSprite x y n).V j = if j = regF then bool01 s.collisionAnswer else s.V j := by
  simp [State.drawSprite, State.setV_V]

/-! ## The key-event step (43_io.md R173) -/

/-- A key-event step waits, ignores an event that maps to no key, or resolves the wait. -/
theorem State.keyEvent_cases (x : RegIdx) :
    (s.keyEventAnswer = none ∧ s.keyEvent x = s.afterKeyPoll) ∨
    (∃ raw, s.keyEventAnswer = some raw ∧ Config.mapKey s.cfg raw = none ∧ s.keyEvent x = s.afterKeyEvent raw) ∨
    (∃ raw k, s.keyEventAnswer = some raw ∧ Config.mapKey s.cfg raw = some k ∧
      s.keyEvent x = ((s.afterKeyEvent raw).setV x (k.setWidth 8)).setRun .running) := by
  unfold State.keyEvent
  cases h : s.keyEventAnswer with
  | none => exact .inl ⟨rfl, rfl⟩
  | some raw =>
    cases h' : Config.mapKey s.cfg raw with
    | none => exact .inr (.inl ⟨raw, rfl, h', by simp [h']⟩)
    | some k => exact .inr (.inr ⟨raw, k, rfl, h', by simp [h']⟩)

/-! ## Unrecognised opcodes (30_encoding.md R81) -/

theorem State.unrecognised_cases (op : Word) :
    (s.cfg.unknownOpcodePolicy = .ignore ∧ s.unrecognised op = s) ∨
    (s.cfg.unknownOpcodePolicy = .fault ∧ s.unrecognised op = s.raise (.unknownOpcode s.instrAddr op)) := by
  unfold State.unrecognised
  cases s.cfg.unknownOpcodePolicy <;> simp

/-! ## Boot (70_reset_and_hazards.md R232, R233) -/

theorem State.load_fits {image : List Byte} (h : image.length + progBase < memSize) :
    s.load image = { (s.writeBytes progBase image).setPc (BitVec.ofNat 16 progBase) with boot := .loaded } := if_pos h

theorem State.load_tooLarge {image : List Byte} (h : ¬ image.length + progBase < memSize) :
    s.load image = s.raise (.loadTooLarge image.length) := if_neg h

/-! ## Flags -/

theorem bool01_eq_one {b : Bool} : bool01 b = 1#8 ↔ b = true := by cases b <;> decide
theorem bool01_eq_zero {b : Bool} : bool01 b = 0#8 ↔ b = false := by cases b <;> decide

/-- 8-bit addition is the sum mod 256 (42_alu.md R155, R161). -/
theorem addResult_eq (a b : Byte) : addResult a b = BitVec.ofNat 8 (a.toNat + b.toNat) :=
  BitVec.eq_of_toNat_eq (by simp [addResult])
/-- 8-bit subtraction is the difference mod 256 (42_alu.md R156, R161). -/
theorem subResult_eq (a b : Byte) : subResult a b = BitVec.ofInt 8 (a.toNat - b.toNat) := by
  have ha := a.isLt
  have hb := b.isLt
  apply BitVec.eq_of_toNat_eq
  rw [subResult, BitVec.toNat_sub, BitVec.toNat_ofInt]
  omega
/-- SHR halves (42_alu.md R157). -/
theorem shrResult_toNat (a b : Byte) : (shrResult a b).toNat = a.toNat / 2 := by simp [shrResult]
/-- SHR's flag is the least significant bit (42_alu.md R157). -/
theorem shrFlag_toNat (a b : Byte) : (shrFlag a b).toNat = a.toNat % 2 := by
  simp [shrFlag, Nat.and_one_is_mod]
/-- SHL doubles mod 256 (42_alu.md R159). -/
theorem shlResult_toNat (a b : Byte) : (shlResult a b).toNat = a.toNat * 2 % 256 := by simp [shlResult]
/-- SHL's flag is 0x80 where bit 7 is set and 0 where it is not (42_alu.md R159). -/
theorem shlFlag_eq (a b : Byte) : shlFlag a b = if 128 ≤ a.toNat then 0x80#8 else 0#8 := by
  revert a; simp only [shlFlag]; decide

/-- The digits of a byte, as numbers (43_io.md R178). -/
theorem bcdDigits_eq (b : Byte) : bcdDigits b =
    [BitVec.ofNat 8 (b.toNat / 100), BitVec.ofNat 8 (b.toNat / 10 % 10), BitVec.ofNat 8 (b.toNat % 10)] := by
  have hb := b.isLt
  simp only [bcdDigits, List.cons.injEq, and_true]
  refine ⟨?_, ?_, ?_⟩ <;> apply BitVec.eq_of_toNat_eq <;> simp <;> omega

end Sys2Proof.Machine
end

