-- ==== Sys2Proof/Laws/Step.lean ====
section
/-! SUPPORT. What one step can do, said once. -/

namespace Sys2Proof.Machine

variable (s : State)

/-! ## Choosing the agent (60_exceptions.md R205) -/

@[simp] theorem State.afterTurn_cfg : s.afterTurn.cfg = s.cfg := by unfold State.afterTurn; split <;> rfl
@[simp] theorem State.afterTurn_v : s.afterTurn.v = s.v := by unfold State.afterTurn; split <;> rfl
@[simp] theorem State.afterTurn_i : s.afterTurn.i = s.i := by unfold State.afterTurn; split <;> rfl
@[simp] theorem State.afterTurn_pc : s.afterTurn.pc = s.pc := by unfold State.afterTurn; split <;> rfl
@[simp] theorem State.afterTurn_dt : s.afterTurn.dt = s.dt := by unfold State.afterTurn; split <;> rfl
@[simp] theorem State.afterTurn_st : s.afterTurn.st = s.st := by unfold State.afterTurn; split <;> rfl
@[simp] theorem State.afterTurn_stack : s.afterTurn.stack = s.stack := by unfold State.afterTurn; split <;> rfl
@[simp] theorem State.afterTurn_sp : s.afterTurn.sp = s.sp := by unfold State.afterTurn; split <;> rfl
@[simp] theorem State.afterTurn_run : s.afterTurn.run = s.run := by unfold State.afterTurn; split <;> rfl
@[simp] theorem State.afterTurn_mem : s.afterTurn.mem = s.mem := by unfold State.afterTurn; split <;> rfl
@[simp] theorem State.afterTurn_boot : s.afterTurn.boot = s.boot := by unfold State.afterTurn; split <;> rfl
@[simp] theorem State.afterTurn_calls : s.afterTurn.calls = s.calls := by unfold State.afterTurn; split <;> rfl
@[simp] theorem State.afterTurn_V (j : RegIdx) : s.afterTurn.V j = s.V j := by simp [State.V]
@[simp] theorem State.afterTurn_readByte (a : Nat) : s.afterTurn.readByte a = s.readByte a := by simp [State.readByte]
@[simp] theorem State.afterTurn_wordAt (a : Nat) : s.afterTurn.wordAt a = s.wordAt a := by simp [State.wordAt]

/-! ## The instruction step (20_memory.md R65) -/

/-- The instruction step raises `MEM_RANGE` at the fetch, meets an unrecognised opcode, or executes the decoded
instruction after adding 2 to PC. -/
theorem instrStep_cases :
    (memSize < s.pc.toNat + 2 ∧ instrStep s = .next (s.raise (.memRange (max s.pc.toNat memSize) s.pc none))) ∨
    (s.pc.toNat + 2 ≤ memSize ∧ ∃ e, decode (s.wordAt s.pc.toNat) = .error e ∧
      instrStep s = .next (s.advance.unrecognised (s.wordAt s.pc.toNat))) ∨
    (s.pc.toNat + 2 ≤ memSize ∧ ∃ i, decode (s.wordAt s.pc.toNat) = .ok i ∧ instrStep s = exec i s.advance) := by
  unfold instrStep
  cases h : firstOutOfRange s.pc.toNat 2 with
  | some a =>
    obtain ⟨⟨_, h2⟩, rfl⟩ := firstOutOfRange_eq_some.mp h
    exact .inl ⟨h2, rfl⟩
  | none =>
    have hr : s.pc.toNat + 2 ≤ memSize := (firstOutOfRange_eq_none.mp h).resolve_left (by decide)
    refine .inr ?_
    simp only [execute]
    cases hd : decode (s.wordAt s.pc.toNat) with
    | error e => exact .inl ⟨hr, e, rfl, rfl⟩
    | ok i => exact .inr ⟨hr, i, rfl, rfl⟩

/-! ## The step -/

theorem step_faulted {f : Fault} (h : s.run = .faulted f) : step s = .fault f := by
  simp [step, machineStep, h]

theorem step_waiting (h : s.NotFaulted) (hb : s.boot = .waiting) : step s = .next s := by
  unfold step machineStep
  cases hr : s.run with
  | faulted f => exact absurd hr (h f)
  | _ => simp [hb]

theorem step_offered {image : List Byte} (h : s.NotFaulted) (hb : s.boot = .offered image) :
    step s = .next (s.load image) := by
  unfold step machineStep
  cases hr : s.run with
  | faulted f => exact absurd hr (h f)
  | _ => simp [hb]

theorem step_timer (h : s.NotFaulted) (hb : s.boot = .loaded) (ht : s.nextTurn = .timer) :
    step s = .next s.afterTurn.tick := by
  unfold step machineStep
  cases hr : s.run with
  | faulted f => exact absurd hr (h f)
  | _ => simp [hb, agentStep, ht]

theorem step_awaiting {x : RegIdx} (hr : s.run = .awaitingKey x) (hb : s.boot = .loaded) (ht : s.nextTurn = .core) :
    step s = .next (s.afterTurn.keyEvent x) := by
  simp [step, machineStep, hr, hb, agentStep, ht, coreStep]

theorem step_running (hr : s.run = .running) (hb : s.boot = .loaded) (ht : s.nextTurn = .core) :
    step s = instrStep s.afterTurn := by
  simp [step, machineStep, hr, hb, agentStep, ht, coreStep]

/-- What one step can do: nothing from a faulted state, wait for a program, load it, tick, take a key event, or run
an instruction step. -/
theorem step_cases :
    (∃ f, s.run = .faulted f ∧ step s = .fault f) ∨
    (s.NotFaulted ∧ s.boot = .waiting ∧ step s = .next s) ∨
    (∃ image, s.NotFaulted ∧ s.boot = .offered image ∧ step s = .next (s.load image)) ∨
    (s.NotFaulted ∧ s.boot = .loaded ∧ s.nextTurn = .timer ∧ step s = .next s.afterTurn.tick) ∨
    (∃ x, s.run = .awaitingKey x ∧ s.boot = .loaded ∧ s.nextTurn = .core ∧ step s = .next (s.afterTurn.keyEvent x)) ∨
    (s.run = .running ∧ s.boot = .loaded ∧ s.nextTurn = .core ∧ step s = instrStep s.afterTurn) := by
  by_cases hf : s.NotFaulted
  · refine .inr ?_
    cases hb : s.boot with
    | waiting => exact .inl ⟨hf, rfl, step_waiting s hf hb⟩
    | offered image => exact .inr (.inl ⟨image, hf, rfl, step_offered s hf hb⟩)
    | loaded =>
      refine .inr (.inr ?_)
      cases ht : s.nextTurn with
      | timer => exact .inl ⟨hf, rfl, rfl, step_timer s hf hb ht⟩
      | core =>
        refine .inr ?_
        cases hr : s.run with
        | faulted f => exact absurd hr (hf f)
        | awaitingKey x => exact .inl ⟨x, rfl, rfl, rfl, step_awaiting s hr hb ht⟩
        | running => exact .inr ⟨rfl, rfl, rfl, step_running s hr hb ht⟩
  · simp only [State.NotFaulted, not_forall, not_not] at hf
    obtain ⟨f, hr⟩ := hf
    exact .inl ⟨f, hr, step_faulted s hr⟩

/-! ## The call stack and the invariant -/

/-- A push keeps the call-stack storage canonical and `SP` in its range. -/
theorem State.push_inv {w : Word} {t : State} (h : s.Inv) (hp : s.push w = some t) : t.Inv := by
  by_cases hs : s.sp = s.cfg.stackDepth
  · simp [State.push_full s hs] at hp
  · rw [State.push_room s hs, Option.some.injEq] at hp
    subst hp
    have hlt : s.sp < s.cfg.stackDepth := lt_of_le_of_ne h.sp hs
    exact ⟨h.cfg, h.mem, Sparse.wf_set w h.stack (Nat.zero_le _) hlt, hlt⟩

/-- A pop keeps the invariant. -/
theorem State.pop_inv {w : Word} {t : State} (h : s.Inv) (hp : s.pop = some (w, t)) : t.Inv := by
  cases hs : s.sp with
  | zero => simp [State.pop_empty s hs] at hp
  | succ n =>
    rw [State.pop_held s hs, Option.some.injEq, Prod.mk.injEq] at hp
    obtain ⟨-, rfl⟩ := hp
    have := h.sp
    exact ⟨h.cfg, h.mem, h.stack, by simp only; omega⟩

/-- Writing bytes at addresses that exist keeps the invariant. -/
theorem State.writeBytes_inv {base : Nat} {bs : List Byte} (h : s.Inv) (hb : base + bs.length ≤ memSize) :
    (s.writeBytes base bs).Inv := by
  have hm := State.writeBytes_wf h.mem hb
  rw [State.writeBytes_eq]
  exact ⟨h.cfg, hm, h.stack, h.sp⟩

/-- The invariant looks at the parameters, the memory and the call stack only. -/
theorem State.inv_of_same {t : State} (h : s.Inv) (hc : t.cfg = s.cfg) (hm : t.mem = s.mem) (hk : t.stack = s.stack)
    (hp : t.sp = s.sp) : t.Inv :=
  ⟨hc ▸ h.cfg, by rw [hc, hm]; exact h.mem, by rw [hc, hk]; exact h.stack, by rw [hc, hp]; exact h.sp⟩

/-- `load` keeps the invariant. -/
theorem State.load_inv {image : List Byte} (h : s.Inv) : (s.load image).Inv := by
  by_cases hf : image.length + progBase < memSize
  · rw [State.load_fits s hf]
    have hb : progBase + image.length ≤ memSize := by omega
    exact State.inv_of_same _ (State.writeBytes_inv s h hb) rfl rfl rfl rfl
  · rw [State.load_tooLarge s hf]
    exact State.inv_of_same s h rfl rfl rfl rfl

end Sys2Proof.Machine
end

