-- ==== Sys2Proof/Laws/Exec.lean ====
section
/-! SUPPORT. One lemma per instruction whose meaning has a fault case: what it answers in each case. -/

namespace Sys2Proof.Machine

variable (s : State)

/-! ## The call stack -/

theorem exec_ret_empty (h : s.sp = 0) :
    exec .ret s = .next (s.raise (.stackUnderflow s.instrAddr (encode .ret))) := by
  simp only [exec, execRet, State.pop_empty s h]

theorem exec_ret_held {n : Nat} (h : s.sp = n + 1) :
    exec .ret s = .next { s with pc := s.stackEntry n, sp := n } := by
  simp only [exec, execRet, State.pop_held s h, State.setPc]

theorem exec_call_full {nnn : Addr} (h : s.sp = s.cfg.stackDepth) :
    exec (.call nnn) s = .next (s.raise (.stackOverflow s.instrAddr (encode (.call nnn)) s.sp)) := by
  simp only [exec, execCall, State.push_full s h]

theorem exec_call_room {nnn : Addr} (h : s.sp ≠ s.cfg.stackDepth) :
    exec (.call nnn) s = .next
      { s with pc := zextAddr nnn, stack := Sparse.set StackStore.unlisted s.stack s.sp s.pc, sp := s.sp + 1 } := by
  simp only [exec, execCall, State.push_room s h, State.setPc]

/-! ## Instructions that access memory at I: in range their effect, out of range `MEM_RANGE` and nothing else -/

theorem exec_drw_cases (x y : RegIdx) (n : Nibble) :
    ((n.toNat = 0 ∨ s.i.toNat + n.toNat ≤ memSize) ∧ exec (.drw x y n) s = .next (s.drawSprite x y n)) ∨
    ((n.toNat ≠ 0 ∧ memSize < s.i.toNat + n.toNat) ∧ exec (.drw x y n) s = .next
      (s.raise (.memRange (max s.i.toNat memSize) s.instrAddr (some (encode (.drw x y n)))))) := by
  rcases s.withRange_cases (.drw x y n) s.baseAddr n.toNat (s.drawSprite x y n) with ⟨h, e⟩ | ⟨h, e⟩
  · exact .inl ⟨h, congrArg _ e⟩
  · exact .inr ⟨h, congrArg _ e⟩

theorem exec_ldB_cases (x : RegIdx) :
    (s.i.toNat + 3 ≤ memSize ∧ exec (.ldB x) s = .next (s.writeBytes s.i.toNat (bcdDigits (s.V x)))) ∨
    (memSize < s.i.toNat + 3 ∧ exec (.ldB x) s = .next
      (s.raise (.memRange (max s.i.toNat memSize) s.instrAddr (some (encode (.ldB x)))))) := by
  rcases s.withRange_cases (.ldB x) s.baseAddr 3 (s.writeBytes s.baseAddr (bcdDigits (s.V x))) with ⟨h, e⟩ | ⟨h, e⟩
  · exact .inl ⟨h.resolve_left (by decide), congrArg _ e⟩
  · exact .inr ⟨h.2, congrArg _ e⟩

theorem exec_ldIVx_cases (x : RegIdx) :
    (s.i.toNat + blockLen x ≤ memSize ∧
      exec (.ldIVx x) s = .next (s.writeBytes s.i.toNat (s.regsFrom 0 (blockLen x)))) ∨
    (memSize < s.i.toNat + blockLen x ∧ exec (.ldIVx x) s = .next
      (s.raise (.memRange (max s.i.toNat memSize) s.instrAddr (some (encode (.ldIVx x)))))) := by
  rcases s.withRange_cases (.ldIVx x) s.baseAddr (blockLen x) (s.writeBytes s.baseAddr (s.regsFrom 0 (blockLen x)))
    with ⟨h, e⟩ | ⟨h, e⟩
  · exact .inl ⟨h.resolve_left (Nat.succ_ne_zero _), congrArg _ e⟩
  · exact .inr ⟨h.2, congrArg _ e⟩

theorem exec_ldVxI_cases (x : RegIdx) :
    (s.i.toNat + blockLen x ≤ memSize ∧
      exec (.ldVxI x) s = .next (s.loadRegsFrom 0 (s.readBytes s.i.toNat (blockLen x)))) ∨
    (memSize < s.i.toNat + blockLen x ∧ exec (.ldVxI x) s = .next
      (s.raise (.memRange (max s.i.toNat memSize) s.instrAddr (some (encode (.ldVxI x)))))) := by
  rcases s.withRange_cases (.ldVxI x) s.baseAddr (blockLen x)
    (s.loadRegsFrom 0 (s.readBytes s.baseAddr (blockLen x))) with ⟨h, e⟩ | ⟨h, e⟩
  · exact .inl ⟨h.resolve_left (Nat.succ_ne_zero _), congrArg _ e⟩
  · exact .inr ⟨h.2, congrArg _ e⟩

end Sys2Proof.Machine
end

