-- ==== Sys2Proof/Laws/PerInstr.lean ====
section
/-! SUPPORT. One lemma per constructor: the word the encoder gives an instruction decodes to it. -/

namespace Sys2Proof.Laws.DecodesToItself

/-- Decoding the encoding of an instruction gives it back. -/
def Statement (i : Instr) : Prop := decode (encode i) = .ok i

/-- An instruction of groups 1 to F: what the Extended Dispatcher says of its word is what decoding says. -/
theorem of_extended {i : Instr} (h : opHigh (encode i) ≠ 0x0#4) (e : decodeExtended (encode i) = .ok i) :
    Statement i := (decode_of_high h).trans e

theorem cls : Statement .cls := by unfold Statement; decide
theorem ret : Statement .ret := by unfold Statement; decide
theorem jp (nnn : Addr) : Statement (.jp nnn) := of_extended (by simp [encode]) (by simp [encode, decodeExtended])
theorem call (nnn : Addr) : Statement (.call nnn) := of_extended (by simp [encode]) (by simp [encode, decodeExtended])
theorem seImm (x : RegIdx) (kk : Byte) : Statement (.seImm x kk) := of_extended (by simp [encode]) (by simp [encode, decodeExtended])
theorem sneImm (x : RegIdx) (kk : Byte) : Statement (.sneImm x kk) := of_extended (by simp [encode]) (by simp [encode, decodeExtended])
theorem seReg (x y : RegIdx) : Statement (.seReg x y) := of_extended (by simp [encode]) (by simp [encode, decodeExtended])
theorem ldImm (x : RegIdx) (kk : Byte) : Statement (.ldImm x kk) := of_extended (by simp [encode]) (by simp [encode, decodeExtended])
theorem addImm (x : RegIdx) (kk : Byte) : Statement (.addImm x kk) := of_extended (by simp [encode]) (by simp [encode, decodeExtended])
theorem ldReg (x y : RegIdx) : Statement (.ldReg x y) := of_extended (by simp [encode]) (by simp [encode, decodeAlu, decodeExtended])
theorem orReg (x y : RegIdx) : Statement (.orReg x y) := of_extended (by simp [encode]) (by simp [encode, decodeAlu, decodeExtended])
theorem andReg (x y : RegIdx) : Statement (.andReg x y) := of_extended (by simp [encode]) (by simp [encode, decodeAlu, decodeExtended])
theorem xorReg (x y : RegIdx) : Statement (.xorReg x y) := of_extended (by simp [encode]) (by simp [encode, decodeAlu, decodeExtended])
theorem addReg (x y : RegIdx) : Statement (.addReg x y) := of_extended (by simp [encode]) (by simp [encode, decodeAlu, decodeExtended])
theorem subReg (x y : RegIdx) : Statement (.subReg x y) := of_extended (by simp [encode]) (by simp [encode, decodeAlu, decodeExtended])
theorem shr (x y : RegIdx) : Statement (.shr x y) := of_extended (by simp [encode]) (by simp [encode, decodeAlu, decodeExtended])
theorem subn (x y : RegIdx) : Statement (.subn x y) := of_extended (by simp [encode]) (by simp [encode, decodeAlu, decodeExtended])
theorem shl (x y : RegIdx) : Statement (.shl x y) := of_extended (by simp [encode]) (by simp [encode, decodeAlu, decodeExtended])
theorem sneReg (x y : RegIdx) : Statement (.sneReg x y) := of_extended (by simp [encode]) (by simp [encode, decodeExtended])
theorem ldI (nnn : Addr) : Statement (.ldI nnn) := of_extended (by simp [encode]) (by simp [encode, decodeExtended])
theorem jpV0 (nnn : Addr) : Statement (.jpV0 nnn) := of_extended (by simp [encode]) (by simp [encode, decodeExtended])
theorem rnd (x : RegIdx) (kk : Byte) : Statement (.rnd x kk) := of_extended (by simp [encode]) (by simp [encode, decodeExtended])
theorem drw (x y : RegIdx) (n : Nibble) : Statement (.drw x y n) := of_extended (by simp [encode]) (by simp [encode, decodeExtended])
theorem skp (x : RegIdx) : Statement (.skp x) := of_extended (by simp [encode]) (by simp [encode, decodeKeySkip, decodeExtended])
theorem sknp (x : RegIdx) : Statement (.sknp x) := of_extended (by simp [encode]) (by simp [encode, decodeKeySkip, decodeExtended])
theorem ldVxDt (x : RegIdx) : Statement (.ldVxDt x) := of_extended (by simp [encode]) (by simp [encode, decodeIo, decodeExtended])
theorem ldVxK (x : RegIdx) : Statement (.ldVxK x) := of_extended (by simp [encode]) (by simp [encode, decodeIo, decodeExtended])
theorem ldDtVx (x : RegIdx) : Statement (.ldDtVx x) := of_extended (by simp [encode]) (by simp [encode, decodeIo, decodeExtended])
theorem ldStVx (x : RegIdx) : Statement (.ldStVx x) := of_extended (by simp [encode]) (by simp [encode, decodeIo, decodeExtended])
theorem addI (x : RegIdx) : Statement (.addI x) := of_extended (by simp [encode]) (by simp [encode, decodeIo, decodeExtended])
theorem ldF (x : RegIdx) : Statement (.ldF x) := of_extended (by simp [encode]) (by simp [encode, decodeIo, decodeExtended])
theorem ldB (x : RegIdx) : Statement (.ldB x) := of_extended (by simp [encode]) (by simp [encode, decodeIo, decodeExtended])
theorem ldIVx (x : RegIdx) : Statement (.ldIVx x) := of_extended (by simp [encode]) (by simp [encode, decodeIo, decodeExtended])
theorem ldVxI (x : RegIdx) : Statement (.ldVxI x) := of_extended (by simp [encode]) (by simp [encode, decodeIo, decodeExtended])

end Sys2Proof.Laws.DecodesToItself
end

