-- ==== Sys2Proof/Tests/Slice0.lean ====
section
/-! SUPPORT. The model's own tests. Expected results come from spec/95_test_vectors.md (V1-V129), from the bit patterns
of the encodings in files 40 to 43, and from the rules cited. The last part shows, for every obligation with
hypotheses, concrete states that meet them. -/

namespace Sys2Proof.Tests

open Sys2Proof Sys2Proof.Machine

/-! ## A small machine -/

/-- Depth 2, the conventional font (93 G10), the spec's default policies, one key mapped. -/
def cfg0 : Config where
  stackDepth := 2
  fontData := Config.conventionalFont
  unknownOpcodePolicy := .ignore
  aluAliasMode := .latched
  tickDuringKeyWait := false
  keyMap := [(20, 0x7#4), (21, 0xA#4)]

/-- A loaded machine after the fetch of the instruction at 0x200, every kind of answer listed. -/
def s0 : State :=
  { State.resetWith cfg0 with
    pc := 0x202#16, boot := .loaded, calls := [],
    inputs := ⟨[0xB7#8], [true], [true], [some 20], [.core, .timer]⟩ }

/-- `s0` with the parameter `ALU_ALIAS_MODE = sequential`. -/
def s0seq : State := { s0 with cfg := { cfg0 with aluAliasMode := .sequential } }

/-- `s0` with the parameter `UNKNOWN_OPCODE_POLICY = fault`. -/
def s0strict : State := { s0 with cfg := { cfg0 with unknownOpcodePolicy := .fault } }

/-- What an observer reads of the next state, where there is one. -/
def see {β : Type} (f : State → β) : Result → Option β
  | .next t => some (f t)
  | .fault _ => none
  | .refused _ => none

/-- `V[x]` and VF. -/
def regAndFlag (x : RegIdx) (t : State) : Byte × Byte := (t.V x, t.V regF)

/-- The registers V1 and V2 set, VF = 0xAA (95 L2.7). -/
def alu (a b : Byte) : State := ((s0.setV 0x1#4 a).setV 0x2#4 b).setV 0xF#4 0xAA#8

/-! ## Well-formedness: what each check refuses (30_encoding.md R80; 00_scope.md R6) -/

theorem test_wf_refuses_group0 : wellFormedWord 0x0000#16 = false ∧ wellFormedWord 0x00E1#16 = false := by decide
theorem test_wf_refuses_group8 : wellFormedWord 0x8128#16 = false ∧ wellFormedWord 0x812F#16 = false := by decide
theorem test_wf_refuses_groupE : wellFormedWord 0xE59F#16 = false := by decide
theorem test_wf_refuses_groupF : wellFormedWord 0xF000#16 = false ∧ wellFormedWord 0xF0FF#16 = false := by decide
theorem test_wf_refuses_depth_zero : Config.wf { cfg0 with stackDepth := 0 } = false := by decide
theorem test_wf_accepts : wellFormedWord 0x5121#16 = true ∧ Config.wf cfg0 = true := by decide

/-- The rows do not overlap, so at most one matches a word (30_encoding.md R83). -/
theorem test_rows_do_not_overlap : opcodeTable.Pairwise fun r q => r.overlaps q = false := by decide

theorem test_decode_rejects_by_name :
    decode 0x0123#16 = .error .group0 ∧ decode 0x8118#16 = .error .group8 ∧ decode 0xE59F#16 = .error .groupE ∧
    decode 0xF0FF#16 = .error .groupF ∧ decodeBytes [0x12#8] = .error .truncated := by decide

/-! ## Decoding: one word of every instruction, written bit by bit from its encoding in files 40 to 43 -/

theorem test_decode_cls : decode 0b0000_0000_1110_0000#16 = .ok .cls := by decide
theorem test_decode_ret : decode 0b0000_0000_1110_1110#16 = .ok .ret := by decide
theorem test_decode_jp : decode 0b0001_0011_0000_1010#16 = .ok (.jp 0x30A#12) := by decide
theorem test_decode_call : decode 0b0010_0010_0001_0000#16 = .ok (.call 0x210#12) := by decide
theorem test_decode_seImm : decode 0b0011_0011_0100_0010#16 = .ok (.seImm 0x3#4 0x42#8) := by decide
theorem test_decode_sneImm : decode 0b0100_0011_0100_0010#16 = .ok (.sneImm 0x3#4 0x42#8) := by decide
theorem test_decode_seReg : decode 0b0101_0001_0010_1111#16 = .ok (.seReg 0x1#4 0x2#4) := by decide
theorem test_decode_ldImm : decode 0b0110_1010_0000_0101#16 = .ok (.ldImm 0xA#4 0x05#8) := by decide
theorem test_decode_addImm : decode 0b0111_0000_0000_0011#16 = .ok (.addImm 0x0#4 0x03#8) := by decide
theorem test_decode_ldReg : decode 0b1000_0001_0010_0000#16 = .ok (.ldReg 0x1#4 0x2#4) := by decide
theorem test_decode_orReg : decode 0b1000_0001_0010_0001#16 = .ok (.orReg 0x1#4 0x2#4) := by decide
theorem test_decode_andReg : decode 0b1000_0001_0010_0010#16 = .ok (.andReg 0x1#4 0x2#4) := by decide
theorem test_decode_xorReg : decode 0b1000_0001_0010_0011#16 = .ok (.xorReg 0x1#4 0x2#4) := by decide
theorem test_decode_addReg : decode 0b1000_1010_1011_0100#16 = .ok (.addReg 0xA#4 0xB#4) := by decide
theorem test_decode_subReg : decode 0b1000_0001_0010_0101#16 = .ok (.subReg 0x1#4 0x2#4) := by decide
theorem test_decode_shr : decode 0b1000_0000_0000_0110#16 = .ok (.shr 0x0#4 0x0#4) := by decide
theorem test_decode_subn : decode 0b1000_0001_0010_0111#16 = .ok (.subn 0x1#4 0x2#4) := by decide
theorem test_decode_shl : decode 0b1000_0001_0000_1110#16 = .ok (.shl 0x1#4 0x0#4) := by decide
theorem test_decode_sneReg : decode 0b1001_0001_0010_0000#16 = .ok (.sneReg 0x1#4 0x2#4) := by decide
theorem test_decode_ldI : decode 0b1010_0011_0000_0000#16 = .ok (.ldI 0x300#12) := by decide
theorem test_decode_jpV0 : decode 0b1011_0010_0000_1100#16 = .ok (.jpV0 0x20C#12) := by decide
theorem test_decode_rnd : decode 0b1100_0010_0000_1111#16 = .ok (.rnd 0x2#4 0x0F#8) := by decide
theorem test_decode_drw : decode 0b1101_0000_0001_0101#16 = .ok (.drw 0x0#4 0x1#4 0x5#4) := by decide
theorem test_decode_skp : decode 0b1110_0101_1001_1110#16 = .ok (.skp 0x5#4) := by decide
theorem test_decode_sknp : decode 0b1110_0101_1010_0001#16 = .ok (.sknp 0x5#4) := by decide
theorem test_decode_ldVxDt : decode 0b1111_0100_0000_0111#16 = .ok (.ldVxDt 0x4#4) := by decide
theorem test_decode_ldVxK : decode 0b1111_0101_0000_1010#16 = .ok (.ldVxK 0x5#4) := by decide
theorem test_decode_ldDtVx : decode 0b1111_0100_0001_0101#16 = .ok (.ldDtVx 0x4#4) := by decide
theorem test_decode_ldStVx : decode 0b1111_0100_0001_1000#16 = .ok (.ldStVx 0x4#4) := by decide
theorem test_decode_addI : decode 0b1111_0000_0001_1110#16 = .ok (.addI 0x0#4) := by decide
theorem test_decode_ldF : decode 0b1111_0101_0010_1001#16 = .ok (.ldF 0x5#4) := by decide
theorem test_decode_ldB : decode 0b1111_0000_0011_0011#16 = .ok (.ldB 0x0#4) := by decide
theorem test_decode_ldIVx : decode 0b1111_0010_0101_0101#16 = .ok (.ldIVx 0x2#4) := by decide
theorem test_decode_ldVxI : decode 0b1111_0010_0110_0101#16 = .ok (.ldVxI 0x2#4) := by decide

/-- The table's numbering is that of the word itself: bits 15..0, big-endian in memory (20_memory.md R53). -/
theorem test_decodeTableWord : decodeTableWord 16 0x130A = some (.jp 0x30A#12) ∧ decodeTableWord 16 0x0123 = none := by
  decide

/-! ## The fetch (95 V1-V5, V9, V11) -/

/-- `op` placed at 0x200 of the small machine, the core's turn. -/
def placed (op : Word) : State := { s0 with pc := 0x200#16 }.placeWord op

theorem test_fetch_is_big_endian : see State.pc (step (placed 0x1234#16)) = some 0x234#16 := by decide
theorem test_fetch_at_odd_pc :
    see (fun t => (t.V 0x0#4, t.pc)) (step ({ s0 with pc := 0x201#16 }.placeWord 0x6007#16)) =
      some (0x07#8, 0x203#16) := by decide
theorem test_fetch_across_the_end :
    see (fun t => (t.run, t.pc)) (step { s0 with pc := 0xFFF#16 }) =
      some (.faulted (.memRange 0x1000 0xFFF#16 none), 0xFFF#16) := by decide
theorem test_unknown_ignored :
    see (fun t => (t.run, t.pc, t.v)) (step (placed 0x0123#16)) = some (.running, 0x202#16, s0.v) := by decide
theorem test_unknown_fault :
    see (fun t => (t.run, t.pc)) (step ({ s0strict with pc := 0x200#16 }.placeWord 0x0123#16)) =
      some (.faulted (.unknownOpcode 0x200#16 0x0123#16), 0x202#16) := by decide

/-! ## Primary Dispatcher, jumps and calls (95 V6-V8, V13-V19) -/

theorem test_cls : see State.calls (exec .cls s0) = some [.screenClear] := by decide
theorem test_ret :
    see (fun t => (t.pc, t.sp)) (exec .ret { s0 with stack := [(0, 0x206#16)], sp := 1, pc := 0x216#16 }) =
      some (0x206#16, 0) := by decide
theorem test_ret_empty :
    see (fun t => (t.run, t.pc)) (exec .ret s0) =
      some (.faulted (.stackUnderflow 0x200#16 0x00EE#16), 0x202#16) := by decide
theorem test_jp : see State.pc (exec (.jp 0x30A#12) s0) = some 0x30A#16 := by decide
theorem test_call :
    see (fun t => (t.stackEntry 0, t.sp, t.pc)) (exec (.call 0x210#12) { s0 with pc := 0x206#16 }) =
      some (0x206#16, 1, 0x210#16) := by decide
theorem test_call_full :
    see (fun t => (t.run, t.pc, t.stack)) (exec (.call 0x400#12) { s0 with sp := 2, pc := 0x302#16 }) =
      some (.faulted (.stackOverflow 0x300#16 0x2400#16 2), 0x302#16, []) := by decide
theorem test_jpV0_is_not_reduced :
    see State.pc (exec (.jpV0 0xFFF#12) (s0.setV 0x0#4 0xFF#8)) = some 0x10FE#16 := by decide
theorem test_jpV0_uses_V0 :
    see State.pc (exec (.jpV0 0x300#12) ((s0.setV 0x0#4 1#8).setV 0x3#4 0x50#8)) = some 0x301#16 := by decide

/-! ## Skips (95 V20-V37) -/

theorem test_seImm :
    see State.pc (exec (.seImm 0x3#4 0x42#8) (s0.setV 0x3#4 0x42#8)) = some 0x204#16 ∧
    see State.pc (exec (.seImm 0x3#4 0x42#8) (s0.setV 0x3#4 0x41#8)) = some 0x202#16 := by decide
theorem test_sneImm :
    see State.pc (exec (.sneImm 0x3#4 0x42#8) (s0.setV 0x3#4 0x41#8)) = some 0x204#16 ∧
    see State.pc (exec (.sneImm 0x3#4 0x42#8) (s0.setV 0x3#4 0x42#8)) = some 0x202#16 := by decide
theorem test_seReg :
    see State.pc (exec (.seReg 0x1#4 0x2#4) (alu 7#8 7#8)) = some 0x204#16 ∧
    see State.pc (exec (.seReg 0x1#4 0x2#4) (alu 7#8 8#8)) = some 0x202#16 := by decide
theorem test_sneReg :
    see State.pc (exec (.sneReg 0x1#4 0x2#4) (alu 7#8 8#8)) = some 0x204#16 ∧
    see State.pc (exec (.sneReg 0x1#4 0x1#4) (alu 7#8 8#8)) = some 0x202#16 := by decide
theorem test_skp :
    see (fun t => (t.pc, t.calls)) (exec (.skp 0x5#4) (s0.setV 0x5#4 0x20#8)) =
      some (0x204#16, [.keyIsDown 0x20#8]) := by decide
theorem test_sknp :
    see (fun t => (t.pc, t.calls)) (exec (.sknp 0x5#4) (s0.setV 0x5#4 0x07#8)) =
      some (0x202#16, [.keyIsDown 0x07#8]) := by decide

/-! ## Immediates, index, random, draw (95 V38-V52) -/

theorem test_ldImm : see (State.V · 0xF#4) (exec (.ldImm 0xF#4 0#8) (s0.setV 0xF#4 1#8)) = some 0#8 := by decide
theorem test_addImm_wraps_without_carry :
    see (regAndFlag 0x0#4) (exec (.addImm 0x0#4 0x03#8) (s0.setV 0x0#4 0xFE#8)) = some (0x01#8, 0x00#8) := by decide
theorem test_ldI : see State.i (exec (.ldI 0x300#12) { s0 with i := 0x1234#16 }) = some 0x0300#16 := by decide
theorem test_rnd : see (State.V · 0x2#4) (exec (.rnd 0x2#4 0x0F#8) s0) = some 0x07#8 := by decide
theorem test_drw_reads_coordinates_before_VF :
    see (fun t => (t.V regF, t.calls)) (exec (.drw 0xF#4 0x2#4 0x1#4)
      { ((s0.setV 0xF#4 5#8).setV 0x2#4 9#8).writeByte 0x300 0x3C#8 with i := 0x300#16 }) =
      some (1#8, [.screenDraw 5#8 9#8 [0x3C#8] 1]) := by decide
theorem test_drw_out_of_range :
    see (fun t => (t.run, t.calls, t.pc)) (exec (.drw 0x0#4 0x1#4 0x3#4) { s0 with i := 0xFFE#16 }) =
      some (.faulted (.memRange 0x1000 0x200#16 (some 0xD013#16)), [], 0x202#16) := by decide

/-! ## ALU group (95 V53-V89) -/

theorem test_ldReg : see (regAndFlag 0x1#4) (exec (.ldReg 0x1#4 0x2#4) (alu 0x00#8 0x33#8)) = some (0x33#8, 0xAA#8) := by
  decide
theorem test_orReg : see (regAndFlag 0x1#4) (exec (.orReg 0x1#4 0x2#4) (alu 0xF0#8 0x0F#8)) = some (0xFF#8, 0xAA#8) := by
  decide
theorem test_andReg : see (regAndFlag 0x1#4) (exec (.andReg 0x1#4 0x2#4) (alu 0xF0#8 0x3C#8)) = some (0x30#8, 0xAA#8) := by
  decide
theorem test_xorReg : see (regAndFlag 0x1#4) (exec (.xorReg 0x1#4 0x2#4) (alu 0xF0#8 0x3C#8)) = some (0xCC#8, 0xAA#8) := by
  decide
theorem test_addReg :
    see (regAndFlag 0x1#4) (exec (.addReg 0x1#4 0x2#4) (alu 0xFF#8 0x01#8)) = some (0x00#8, 1#8) ∧
    see (regAndFlag 0x1#4) (exec (.addReg 0x1#4 0x2#4) (alu 0x80#8 0x7F#8)) = some (0xFF#8, 0#8) := by decide
theorem test_subReg :
    see (regAndFlag 0x1#4) (exec (.subReg 0x1#4 0x2#4) (alu 0x05#8 0x05#8)) = some (0x00#8, 0#8) ∧
    see (regAndFlag 0x1#4) (exec (.subReg 0x1#4 0x2#4) (alu 0x10#8 0x01#8)) = some (0x0F#8, 1#8) := by decide
theorem test_shr : see (regAndFlag 0x1#4) (exec (.shr 0x1#4 0x2#4) (alu 0x93#8 0x55#8)) = some (0x49#8, 1#8) := by decide
theorem test_subn :
    see (regAndFlag 0x1#4) (exec (.subn 0x1#4 0x2#4) (alu 0x01#8 0x10#8)) = some (0x0F#8, 1#8) ∧
    see (regAndFlag 0x1#4) (exec (.subn 0x1#4 0x2#4) (alu 0x80#8 0x00#8)) = some (0x80#8, 0#8) := by decide
theorem test_shl_flag_is_not_normalised :
    see (regAndFlag 0x1#4) (exec (.shl 0x1#4 0x2#4) (alu 0xC0#8 0x55#8)) = some (0x80#8, 0x80#8) := by decide

/-- V82 in both modes. -/
theorem test_alias_addReg :
    see (regAndFlag 0x1#4) (exec (.addReg 0x1#4 0xF#4) ((s0.setV 0x1#4 0x10#8).setV 0xF#4 0xF5#8)) =
      some (0x05#8, 1#8) ∧
    see (regAndFlag 0x1#4) (exec (.addReg 0x1#4 0xF#4) ((s0seq.setV 0x1#4 0x10#8).setV 0xF#4 0xF5#8)) =
      some (0x11#8, 1#8) := by decide
/-- V84 in both modes. -/
theorem test_alias_subReg :
    see (State.V · 0xF#4) (exec (.subReg 0xF#4 0x1#4) ((s0.setV 0xF#4 0x10#8).setV 0x1#4 0x01#8)) = some 0x0F#8 ∧
    see (State.V · 0xF#4) (exec (.subReg 0xF#4 0x1#4) ((s0seq.setV 0xF#4 0x10#8).setV 0x1#4 0x01#8)) = some 0x00#8 := by
  decide
/-- V85 in both modes. -/
theorem test_alias_shr :
    see (State.V · 0xF#4) (exec (.shr 0xF#4 0x1#4) (s0.setV 0xF#4 0x93#8)) = some 0x49#8 ∧
    see (State.V · 0xF#4) (exec (.shr 0xF#4 0x1#4) (s0seq.setV 0xF#4 0x93#8)) = some 0x00#8 := by decide
/-- V86 in both modes. -/
theorem test_alias_subn :
    see (State.V · 0xF#4) (exec (.subn 0xF#4 0x1#4) ((s0.setV 0xF#4 0x05#8).setV 0x1#4 0x10#8)) = some 0x0B#8 ∧
    see (State.V · 0xF#4) (exec (.subn 0xF#4 0x1#4) ((s0seq.setV 0xF#4 0x05#8).setV 0x1#4 0x10#8)) = some 0x0F#8 := by
  decide
/-- V87 in both modes. -/
theorem test_alias_shl :
    see (State.V · 0xF#4) (exec (.shl 0xF#4 0x1#4) (s0.setV 0xF#4 0xC0#8)) = some 0x80#8 ∧
    see (State.V · 0xF#4) (exec (.shl 0xF#4 0x1#4) (s0seq.setV 0xF#4 0xC0#8)) = some 0x00#8 := by decide

/-! ## I/O group (95 V90-V121) -/

theorem test_ldVxDt : see (State.V · 0x4#4) (exec (.ldVxDt 0x4#4) { s0 with dt := 0x3C#8 }) = some 0x3C#8 := by decide
theorem test_ldVxK :
    see (fun t => (t.run, t.pc, t.V 0x5#4)) (exec (.ldVxK 0x5#4) s0) = some (.awaitingKey 0x5#4, 0x202#16, 0#8) := by
  decide
theorem test_ldDtVx :
    see (fun t => (t.dt, t.st)) (exec (.ldDtVx 0x4#4) (s0.setV 0x4#4 0x3C#8)) = some (0x3C#8, 0#8) := by decide
theorem test_ldStVx :
    see (fun t => (t.dt, t.st)) (exec (.ldStVx 0x4#4) (s0.setV 0x4#4 0x08#8)) = some (0#8, 0x08#8) := by decide
theorem test_addI :
    see State.i (exec (.addI 0x1#4) { s0.setV 0x1#4 0x01#8 with i := 0xFFF#16 }) = some 0x1000#16 ∧
    see State.i (exec (.addI 0x1#4) { s0.setV 0x1#4 0x20#8 with i := 0xFFF0#16 }) = some 0x0010#16 := by decide
theorem test_ldF :
    see State.i (exec (.ldF 0x5#4) (s0.setV 0x5#4 0x07#8)) = some 0x0023#16 ∧
    see State.i (exec (.ldF 0x5#4) (s0.setV 0x5#4 0xFF#8)) = some 0x04FB#16 := by decide
theorem test_ldB :
    see (fun t => (t.readBytes 0x300 3, t.i)) (exec (.ldB 0x0#4) { s0.setV 0x0#4 0xEA#8 with i := 0x300#16 }) =
      some ([2#8, 3#8, 4#8], 0x300#16) := by decide
theorem test_ldB_out_of_range :
    see (fun t => (t.run, t.mem)) (exec (.ldB 0x0#4) { s0 with i := 0xFFE#16 }) =
      some (.faulted (.memRange 0x1000 0x200#16 (some 0xF033#16)), []) := by decide
theorem test_ldIVx :
    see (fun t => (t.readBytes 0x310 4, t.i))
      (exec (.ldIVx 0x2#4) { ((s0.setV 0x0#4 1#8).setV 0x1#4 2#8).setV 0x2#4 3#8 with i := 0x310#16 }) =
      some ([1#8, 2#8, 3#8, 0#8], 0x310#16) := by decide
theorem test_ldIVx_to_the_last_byte :
    see (fun t => (t.run, t.readBytes 0xFFE 2))
      (exec (.ldIVx 0x1#4) { (s0.setV 0x0#4 1#8).setV 0x1#4 2#8 with i := 0xFFE#16 }) =
      some (.running, [1#8, 2#8]) := by decide
theorem test_ldVxI :
    see (fun t => (t.regsFrom 0 4, t.i))
      (exec (.ldVxI 0x2#4) { s0.writeBytes 0x300 [2#8, 3#8, 4#8, 5#8] with i := 0x300#16 }) =
      some ([2#8, 3#8, 4#8, 0#8], 0x300#16) := by decide
theorem test_ldVxI_out_of_range :
    see (fun t => (t.run, t.v)) (exec (.ldVxI 0xF#4) { s0 with i := 0xFF5#16 }) =
      some (.faulted (.memRange 0x1000 0x200#16 (some 0xFF65#16)), s0.v) := by decide

/-- V119: raw code 21 maps to 0xA. -/
theorem test_key_event_resolves :
    see (fun t => (t.run, t.V 0xF#4))
      (step { s0.setV 0xF#4 1#8 with run := .awaitingKey 0xF#4, inputs := { s0.inputs with keyEvents := [some 21] } }) =
      some (.running, 0x0A#8) := by decide
/-- V117: raw code 99 maps to no key. -/
theorem test_key_event_ignored :
    see (fun t => (t.run, t.v))
      (step { s0 with run := .awaitingKey 0x5#4, inputs := { s0.inputs with keyEvents := [some 99] } }) =
      some (.awaitingKey 0x5#4, s0.v) := by decide
/-- V120, V121. -/
theorem test_tick_during_key_wait :
    State.tickEnabled { s0 with run := .awaitingKey 0x5#4 } = false ∧
    see State.dt (step { s0 with cfg := { cfg0 with tickDuringKeyWait := true }, run := .awaitingKey 0x5#4, dt := 5#8,
                                 inputs := { s0.inputs with turns := [.timer] } }) = some 4#8 := by decide
/-- V124, V125. -/
theorem test_tick : tickByte 1#8 = 0#8 ∧ tickByte 0#8 = 0#8 ∧ tickByte 5#8 = 4#8 := by decide

/-! ## Reset and load (95 V127-V129) -/

theorem test_reset_font_in_place :
    (State.resetWith cfg0).readByte 0x04B = 0xF0#8 ∧ (State.resetWith cfg0).readByte 0x050 = 0#8 := by decide
theorem test_load :
    ((State.resetWith cfg0).load [0x12#8, 0x00#8]).readBytes 0x200 2 = [0x12#8, 0x00#8] ∧
    ((State.resetWith cfg0).load [0x12#8, 0x00#8]).pc = 0x200#16 := by decide
/-- The host's interface from the model's reset. -/
theorem test_first_instruction_after_reset :
    see (fun t => (t.V 0xA#4, t.pc)) (step (State.reset.withFetchWord 16 0x6A05)) = some (0x05#8, 0x202#16) := by decide

/-! ## Witnesses: the hypotheses of every obligation that has some are met, each clause at a boundary -/

/-- The core waiting for a key for V5, with the event list given. -/
def waitingFor (events : List (Option Nat)) : State :=
  { s0 with run := .awaitingKey 0x5#4, inputs := { s0.inputs with keyEvents := events } }

/-- I, with all else as in `s0`. -/
def atI (i : Word) : State := { s0 with i := i }

theorem s0_inv : s0.Inv := ⟨by decide, by decide, by decide, by decide⟩
theorem atI_inv (i : Word) : (atI i).Inv := State.inv_of_same s0 s0_inv rfl rfl rfl rfl
theorem s0_notFaulted : s0.NotFaulted := by simp [State.NotFaulted, s0, State.resetWith]

theorem witness_EncodeOfDecodeIsCanonical :
    decode 0x5121#16 = .ok (.seReg 0x1#4 0x2#4) ∧ decode 0x8126#16 = .ok (.shr 0x1#4 0x2#4) := by decide

/-- The opcode at the last address it can stand at. -/
def lastOpcode : State := { s0 with pc := 0xFFE#16 }.placeWord 0x00E0#16
theorem witness_StepRunsDecodedInstruction :
    lastOpcode.run = .running ∧ lastOpcode.boot = .loaded ∧ lastOpcode.nextTurn = .core ∧
    lastOpcode.pc.toNat + 2 ≤ memSize ∧
    decode (joinBytes (lastOpcode.readByte lastOpcode.pc.toNat) (lastOpcode.readByte (lastOpcode.pc.toNat + 1))) =
      .ok .cls := by decide

theorem witness_FetchOutOfRangeFaults :
    s0.run = .running ∧ s0.boot = .loaded ∧ ({ s0 with pc := 0xFFF#16 } : State).nextTurn = .core ∧
    memSize < (0xFFF#16 : Word).toNat + 2 ∧ memSize < (0xFFFF#16 : Word).toNat + 2 := by decide

theorem witness_UnrecognisedOpcodePolicy :
    decode 0x8118#16 = .error .group8 ∧ s0.cfg.unknownOpcodePolicy = .ignore ∧
    s0strict.cfg.unknownOpcodePolicy = .fault ∧
    (∀ s ∈ [s0.placeWord 0x8118#16, s0strict.placeWord 0x8118#16],
      s.pc.toNat + 2 ≤ memSize ∧ decode (s.wordAt s.pc.toNat) = .error .group8) := by decide

theorem witness_FaultedCoreTakesNoStep :
    (s0.raise (.loadTooLarge 3584)).run = .faulted (.loadTooLarge 3584) := by decide

/-- No event; an event that maps to no key; one that maps to a key. -/
theorem witness_KeyEventResolvesOrWaits :
    (∀ e ∈ [none, some 99, some 20], let s := waitingFor [e]
      s.run = .awaitingKey 0x5#4 ∧ s.boot = .loaded ∧ s.nextTurn = .core ∧ s.afterTurn.keyEventAnswer = e) ∧
    cfg0.keyMap.lookup 99 = none ∧ cfg0.keyMap.lookup 20 = some 0x7#4 := by decide

theorem witness_TimerTurnTicks :
    let s := { s0 with inputs := { s0.inputs with turns := [.timer] } }
    s.boot = .loaded ∧ s.nextTurn = .timer := by decide

/-- The wait that goes on and the wait that ends. -/
theorem witness_KeyWaitPreservesState :
    (∃ t, step (waitingFor [some 99]) = .next t ∧ t.run = .awaitingKey 0x5#4) ∧
    (∃ t, step (waitingFor [some 20]) = .next t ∧ t.run = .running) ∧
    ∀ e, (waitingFor e).run = .awaitingKey 0x5#4 ∧ (waitingFor e).boot = .loaded ∧
      (waitingFor e).cfg.tickDuringKeyWait = false :=
  ⟨⟨_, rfl, by decide⟩, ⟨_, rfl, by decide⟩, fun _ => ⟨rfl, rfl, rfl⟩⟩

/-- Loaded at the last address, and not loaded. -/
theorem witness_PlacedWordRunsNext :
    ({ s0 with pc := 0xFFE#16 } : State).Inv ∧ s0.boot = .loaded ∧ (0xFFE#16 : Word).toNat + 2 ≤ memSize ∧
    (State.resetWith cfg0).Inv ∧ (State.resetWith cfg0).boot ≠ .loaded :=
  ⟨⟨by decide, by decide, by decide, by decide⟩, by decide, by decide, ⟨by decide, by decide, by decide, by decide⟩,
    by decide⟩

theorem witness_LoadRejectsTooLargeImage :
    (List.replicate 3583 0#8).length ≤ 3583 ∧ 3583 < (List.replicate 3584 0#8).length :=
  ⟨List.length_replicate.le, by rw [List.length_replicate]; decide⟩

theorem witness_LoadWritesImageAndEntersAt200 :
    Memory.wf s0.cfg s0.mem = true ∧ (List.replicate 3583 0#8).length ≤ 3583 ∧
    (let s := { s0 with boot := .offered [0x12#8, 0x00#8] }; s.NotFaulted ∧ s.boot = .offered [0x12#8, 0x00#8]) ∧
    (State.resetWith cfg0).NotFaulted ∧ (State.resetWith cfg0).boot = .waiting :=
  ⟨by decide, List.length_replicate.le, ⟨s0_notFaulted, rfl⟩, by simp [State.NotFaulted, State.resetWith], rfl⟩

theorem witness_ResetValues : ([] : List Byte).length ≤ 3583 ∧ (List.replicate 3583 0#8).length ≤ 3583 :=
  ⟨by decide, List.length_replicate.le⟩

/-- A storing instruction at its last address, and a step that faults. -/
theorem witness_EveryStepKeepsTheInvariant :
    (placed 0xF255#16).Inv ∧ (∃ t, step (placed 0xF255#16) = .next t) ∧
    ({ s0 with pc := 0xFFF#16 } : State).Inv ∧ ∃ t, step { s0 with pc := 0xFFF#16 } = .next t :=
  ⟨⟨by decide, by decide, by decide, by decide⟩, ⟨_, rfl⟩, ⟨by decide, by decide, by decide, by decide⟩, ⟨_, rfl⟩⟩

theorem witness_InvariantHoldsAtReset : Config.wf { cfg0 with stackDepth := 1 } = true := by decide

theorem witness_StepsKeepTheParameters : (∃ t, step (placed 0x00E0#16) = .next t) ∧ s0.boot = .loaded := ⟨⟨_, rfl⟩, rfl⟩

/-- A fault in an instruction, and one in the fetch. -/
theorem witness_FaultsArePrecise :
    (∃ t, instrStep (placed 0x00EE#16) = .next t ∧ t.run = .faulted (.stackUnderflow 0x200#16 0x00EE#16)) ∧
    (placed 0x00EE#16).run = .running ∧ (placed 0x00EE#16).pc.toNat + 2 ≤ memSize ∧
    (∃ t, instrStep { s0 with pc := 0xFFF#16 } = .next t ∧ t.run = .faulted (.memRange 0x1000 0xFFF#16 none)) ∧
    s0.run = .running ∧ memSize < (0xFFF#16 : Word).toNat + 2 :=
  ⟨⟨_, rfl, by decide⟩, by decide, by decide, ⟨_, rfl, by decide⟩, by decide, by decide⟩

/-- Each of the five records an instruction step can leave. -/
theorem witness_FaultRecordsSayWhatHappened :
    see State.run (instrStep { placed 0x2200#16 with sp := 2 }) =
      some (.faulted (.stackOverflow 0x200#16 0x2200#16 2)) ∧
    see State.run (instrStep (placed 0x00EE#16)) = some (.faulted (.stackUnderflow 0x200#16 0x00EE#16)) ∧
    see State.run (instrStep { s0 with pc := 0xFFF#16 }) = some (.faulted (.memRange 0x1000 0xFFF#16 none)) ∧
    see State.run (instrStep { placed 0xF033#16 with i := 0xFFE#16 }) =
      some (.faulted (.memRange 0x1000 0x200#16 (some 0xF033#16))) ∧
    see State.run (instrStep ({ s0strict with pc := 0x200#16 }.placeWord 0x8118#16)) =
      some (.faulted (.unknownOpcode 0x200#16 0x8118#16)) ∧
    (placed 0x2200#16).run = .running ∧ s0.run = .running ∧ s0strict.run = .running := by decide

theorem witness_OnlyListedRegistersAreWritten :
    (∃ t, exec (.addReg 0x1#4 0x2#4) s0 = .next t) ∧ (Instr.addReg 0x1#4 0x2#4).writes 0x2#4 = false ∧
    (∃ t, exec (.ldVxI 0x2#4) s0 = .next t) ∧ (Instr.ldVxI 0x2#4).writes 0x3#4 = false :=
  ⟨⟨_, rfl⟩, by decide, ⟨_, rfl⟩, by decide⟩

/-- A register written and not read, one neither read nor written, and one of an instruction that faults. -/
theorem witness_UnreadRegistersDoNotMatter :
    s0.run = .running ∧ (Instr.shr 0x1#4 0x2#4).reads 0xF#4 = false ∧ (Instr.shr 0x1#4 0x2#4).writes 0xF#4 = true ∧
    (∃ t, exec (.shr 0x1#4 0x2#4) s0 = .next t ∧ t.NotFaulted) ∧
    (Instr.shr 0x1#4 0x2#4).reads 0x2#4 = false ∧ (Instr.shr 0x1#4 0x2#4).writes 0x2#4 = false ∧
    (Instr.ldVxI 0xF#4).reads 0x0#4 = false ∧
    ∃ t, exec (.ldVxI 0xF#4) (atI 0xFF1#16) = .next t ∧ ¬ t.NotFaulted :=
  ⟨by decide, by decide, by decide, ⟨_, rfl, s0_notFaulted⟩, by decide, by decide, by decide,
    ⟨_, rfl, fun h => h _ rfl⟩⟩

theorem witness_IndexAndTimerWriters :
    (∃ t, exec (.ldF 0x1#4) s0 = .next t) ∧ (∃ t, exec (.ldDtVx 0x1#4) s0 = .next t) ∧
    ∃ t, exec (.ldStVx 0x1#4) s0 = .next t := ⟨⟨_, rfl⟩, ⟨_, rfl⟩, ⟨_, rfl⟩⟩

/-- CALL and RET with and without their fault, a jump and a skip. -/
theorem witness_ProgramCounterWriters :
    (∃ t, exec (.call 0x210#12) s0 = .next t) ∧ (∃ t, exec (.call 0x210#12) { s0 with sp := 2 } = .next t) ∧
    (∃ t, exec .ret s0 = .next t) ∧ (∃ t, exec .ret { s0 with sp := 1 } = .next t) ∧
    (∃ t, exec (.jpV0 0xFFF#12) s0 = .next t) ∧ ∃ t, exec (.seReg 0x1#4 0x1#4) s0 = .next t :=
  ⟨⟨_, rfl⟩, ⟨_, rfl⟩, ⟨_, rfl⟩, ⟨_, rfl⟩, ⟨_, rfl⟩, ⟨_, rfl⟩⟩

theorem witness_StackAndRunStateWriters :
    (∃ t, exec (.ldVxK 0x1#4) s0 = .next t) ∧ (∀ nnn, Instr.ldVxK 0x1#4 ≠ .call nnn) ∧ Instr.ldVxK 0x1#4 ≠ .ret :=
  ⟨⟨_, rfl⟩, nofun, nofun⟩

theorem witness_MemoryWriters :
    (∃ t, exec (.drw 0x1#4 0x2#4 0xF#4) s0 = .next t) ∧ (∀ x, Instr.drw 0x1#4 0x2#4 0xF#4 ≠ .ldB x) ∧
    (∀ x, Instr.drw 0x1#4 0x2#4 0xF#4 ≠ .ldIVx x) ∧ ∃ t, exec (.ldIVx 0x2#4) (atI 0xFFD#16) = .next t :=
  ⟨⟨_, rfl⟩, nofun, nofun, ⟨_, rfl⟩⟩

/-- A draw in range to the last byte, and one out of it. -/
theorem witness_CollaboratorCallsByInstruction :
    (∃ t, exec (.drw 0x1#4 0x2#4 0x2#4) (atI 0xFFE#16) = .next t) ∧
    ∃ t, exec (.drw 0x1#4 0x2#4 0x3#4) (atI 0xFFE#16) = .next t := ⟨⟨_, rfl⟩, ⟨_, rfl⟩⟩

theorem witness_RetPopsTheReturnAddress : ({ s0 with sp := 1 } : State).sp = 0 + 1 ∧ s0.sp = 0 := by decide

/-- The last entry that fits, and a full stack. -/
theorem witness_CallPushesTheReturnAddress :
    ({ s0 with sp := 1 } : State).Inv ∧ (1 : Nat) ≠ s0.cfg.stackDepth ∧ ({ s0 with sp := 2 } : State).sp = s0.cfg.stackDepth :=
  ⟨⟨by decide, by decide, by decide, by decide⟩, by decide, by decide⟩

theorem witness_JumpsSetTheProgramCounter :
    ∃ t, exec (.jpV0 0xFFF#12) s0 = .next t ∧ 0xFFF ≤ t.pc.toNat := ⟨_, rfl, by decide⟩

theorem witness_CallThenRetRestores :
    s0.Inv ∧ s0.sp ≠ s0.cfg.stackDepth ∧ ∃ t, exec (.call 0x210#12) s0 = .next t ∧
      (t.setV 0x1#4 9#8).stack = t.stack ∧ (t.setV 0x1#4 9#8).sp = t.sp :=
  ⟨s0_inv, by decide, _, rfl, rfl, rfl⟩

/-- An empty sprite at the top of I's range, the last sprite that fits, and the first that does not. -/
theorem witness_DrwDrawsAndReportsCollision :
    (0x0#4 : Nibble).toNat = 0 ∧ (atI 0xFF1#16).i.toNat + (0xF#4 : Nibble).toNat ≤ 0x1000 ∧
    (0xF#4 : Nibble).toNat ≠ 0 ∧ 0x1000 < (atI 0xFF2#16).i.toNat + (0xF#4 : Nibble).toNat := by decide

theorem witness_AliasModesAgreeWithoutVf :
    Instr.addReg 0x1#4 0xE#4 ∈ [.addReg 0x1#4 0xE#4, .subReg 0x1#4 0xE#4, .shr 0x1#4 0xE#4, .subn 0x1#4 0xE#4,
      .shl 0x1#4 0xE#4] ∧ (0x1#4 : RegIdx) ≠ regF ∧ (0xE#4 : RegIdx) ≠ regF := by decide

/-- The last I that fits, and the first that does not. -/
theorem witness_BcdStore :
    (atI 0xFFD#16).Inv ∧ (atI 0xFFD#16).i.toNat + 2 < 0x1000 ∧ 0x1000 ≤ (atI 0xFFE#16).i.toNat + 2 :=
  ⟨atI_inv _, by decide, by decide⟩

theorem witness_BlockStore :
    (atI 0xFF0#16).Inv ∧ (atI 0xFF0#16).i.toNat + (0xF#4 : RegIdx).toNat < 0x1000 ∧
    0x1000 ≤ (atI 0xFF1#16).i.toNat + (0xF#4 : RegIdx).toNat := ⟨atI_inv _, by decide, by decide⟩

theorem witness_BlockLoad :
    (atI 0xFF0#16).i.toNat + (0xF#4 : RegIdx).toNat < 0x1000 ∧
    0x1000 ≤ (atI 0xFF1#16).i.toNat + (0xF#4 : RegIdx).toNat := by decide

theorem witness_BlockStoreThenLoadRestores :
    (atI 0xFFE#16).Inv ∧ (atI 0xFFE#16).i.toNat + (0x1#4 : RegIdx).toNat < 0x1000 ∧
    ∃ t, exec (.ldIVx 0x1#4) (atI 0xFFE#16) = .next t ∧ (t.setV 0x0#4 9#8).cfg = t.cfg ∧
      (t.setV 0x0#4 9#8).mem = t.mem ∧ (t.setV 0x0#4 9#8).i = t.i :=
  ⟨atI_inv _, by decide, _, rfl, rfl, rfl, rfl⟩

theorem witness_StoresAreSeenByTheNextFetch :
    (atI 0x202#16).Inv ∧ 1 ≤ (0x1#4 : RegIdx).toNat ∧ (atI 0x202#16).i = (atI 0x202#16).pc ∧
    (atI 0x202#16).pc.toNat + (0x1#4 : RegIdx).toNat < 0x1000 := ⟨atI_inv _, by decide, by decide, by decide⟩

theorem witness_EndedRunRepeatsTheSelfJump :
    (placed 0x1200#16).Ended ∧ (placed 0x1200#16).boot = .loaded ∧ (placed 0x1200#16).nextTurn = .core :=
  ⟨⟨by decide, by decide, by decide⟩, by decide, by decide⟩

end Sys2Proof.Tests
end

/-! ## What no step writes: the parameters (00_scope.md R6) and, once loaded, the boot state (70_reset_and_hazards.md
R233) -/

namespace Sys2Proof.Machine

/-- `t` has the parameters and the boot state of `s`: what every operation but `load` leaves as it is. -/
structure SameSetup (s t : State) : Prop where
  cfg : t.cfg = s.cfg
  boot : t.boot = s.boot

theorem SameSetup.trans {s t u : State} (h : SameSetup s t) (k : SameSetup t u) : SameSetup s u :=
  ⟨k.cfg.trans h.cfg, k.boot.trans h.boot⟩

/-- The part of `SameSetup` that `load` keeps too. -/
theorem SameSetup.keepsLoaded {s t : State} (h : SameSetup s t) :
    t.cfg = s.cfg ∧ (s.boot = .loaded → t.boot = .loaded) :=
  ⟨h.cfg, h.boot.trans⟩

section
variable (s : State)

/-! ### The operations the instructions share -/

theorem skipIf_sameSetup (b : Bool) : SameSetup s (s.skipIf b) := by
  rw [State.skipIf_eq]
  exact ⟨rfl, rfl⟩

theorem aluFlagged_sameSetup (flag result : Byte → Byte → Byte) (x y : RegIdx) :
    SameSetup s (s.aluFlagged flag result x y) := by
  rw [State.aluFlagged_eq]
  exact ⟨rfl, rfl⟩

theorem writeBytes_sameSetup (base : Nat) (bs : List Byte) : SameSetup s (s.writeBytes base bs) := by
  rw [State.writeBytes_eq]
  exact ⟨rfl, rfl⟩

theorem loadRegsFrom_sameSetup (k : Nat) (bs : List Byte) : SameSetup s (s.loadRegsFrom k bs) := by
  rw [State.loadRegsFrom_eq]
  exact ⟨rfl, rfl⟩

theorem withRange_sameSetup {k : State} (i : Instr) (base len : Nat) (h : SameSetup s k) :
    SameSetup s (s.withRange i base len k) := by
  rcases s.withRange_cases i base len k with ⟨-, e⟩ | ⟨-, e⟩ <;> rw [e]
  · exact h
  · exact ⟨rfl, rfl⟩

theorem unrecognised_sameSetup (op : Word) : SameSetup s (s.unrecognised op) := by
  rcases s.unrecognised_cases op with ⟨-, e⟩ | ⟨-, e⟩ <;> rw [e] <;> exact ⟨rfl, rfl⟩

theorem keyEvent_sameSetup (x : RegIdx) : SameSetup s (s.keyEvent x) := by
  rcases s.keyEvent_cases x with ⟨-, e⟩ | ⟨_, -, -, e⟩ | ⟨_, _, -, -, e⟩ <;> rw [e] <;> exact ⟨rfl, rfl⟩

theorem afterTurn_sameSetup : SameSetup s s.afterTurn := ⟨s.afterTurn_cfg, s.afterTurn_boot⟩

/-! ### The instructions -/

/-- Every instruction answers a next state, with the parameters and the boot state it found: CALL and RET by whether
the call stack has room or holds an entry, the others by the operation their meaning is made of. -/
theorem exec_next_sameSetup (i : Instr) : ∃ t, exec i s = .next t ∧ SameSetup s t := by
  cases i with
  | ret =>
    cases h : s.sp with
    | zero => exact ⟨_, exec_ret_empty s h, rfl, rfl⟩
    | succ n => exact ⟨_, exec_ret_held s h, rfl, rfl⟩
  | call nnn =>
    by_cases h : s.sp = s.cfg.stackDepth
    · exact ⟨_, exec_call_full s h, rfl, rfl⟩
    · exact ⟨_, exec_call_room s h, rfl, rfl⟩
  | seImm | sneImm | seReg | sneReg => exact ⟨_, rfl, skipIf_sameSetup s _⟩
  | skp x | sknp x =>
    have query : SameSetup s (s.afterKeyDown (s.V x)) := ⟨rfl, rfl⟩
    exact ⟨_, rfl, query.trans (skipIf_sameSetup _ _)⟩
  | addReg | subReg | shr | subn | shl => exact ⟨_, rfl, aluFlagged_sameSetup s _ _ _ _⟩
  | drw => exact ⟨_, rfl, withRange_sameSetup s _ _ _ ⟨rfl, rfl⟩⟩
  | ldB | ldIVx => exact ⟨_, rfl, withRange_sameSetup s _ _ _ (writeBytes_sameSetup s _ _)⟩
  | ldVxI => exact ⟨_, rfl, withRange_sameSetup s _ _ _ (loadRegsFrom_sameSetup s _ _)⟩
  | _ => exact ⟨_, rfl, rfl, rfl⟩

/-! ### The steps -/

variable {s} {t : State}

theorem exec_sameSetup {i : Instr} (h : exec i s = .next t) : SameSetup s t := by
  obtain ⟨u, hu, hs⟩ := exec_next_sameSetup s i
  cases hu.symm.trans h
  exact hs

theorem instrStep_sameSetup (h : instrStep s = .next t) : SameSetup s t := by
  have fetched : SameSetup s s.advance := ⟨rfl, rfl⟩
  rcases instrStep_cases s with ⟨-, e⟩ | ⟨-, _, -, e⟩ | ⟨-, i, -, e⟩
  · cases e.symm.trans h
    exact ⟨rfl, rfl⟩
  · cases e.symm.trans h
    exact fetched.trans (unrecognised_sameSetup _ _)
  · exact fetched.trans (exec_sameSetup (e.symm.trans h))

/-- `load` ends the wait for a program, or faults and leaves the boot state alone; it never unloads one. -/
theorem load_keepsLoaded (s : State) (image : List Byte) :
    (s.load image).cfg = s.cfg ∧ (s.boot = .loaded → (s.load image).boot = .loaded) := by
  by_cases hf : image.length + progBase < memSize
  · rw [State.load_fits s hf]
    exact ⟨s.writeBytes_cfg _ _, fun _ => rfl⟩
  · rw [State.load_tooLarge s hf]
    exact ⟨rfl, id⟩

theorem step_keepsLoaded (h : step s = .next t) : t.cfg = s.cfg ∧ (s.boot = .loaded → t.boot = .loaded) := by
  rcases step_cases s with
    ⟨_, -, e⟩ | ⟨-, -, e⟩ | ⟨image, -, -, e⟩ | ⟨-, -, -, e⟩ | ⟨x, -, -, -, e⟩ | ⟨-, -, -, e⟩ <;> rw [e] at h
  · cases h
  · obtain rfl := Host.Outcome.next.inj h
    exact ⟨rfl, id⟩
  · obtain rfl := Host.Outcome.next.inj h
    exact load_keepsLoaded s image
  · obtain rfl := Host.Outcome.next.inj h
    exact ((afterTurn_sameSetup s).trans ⟨rfl, rfl⟩).keepsLoaded
  · obtain rfl := Host.Outcome.next.inj h
    exact ((afterTurn_sameSetup s).trans (keyEvent_sameSetup _ x)).keepsLoaded
  · exact ((afterTurn_sameSetup s).trans (instrStep_sameSetup h)).keepsLoaded

end

/-- Settles O21, from what one step can do (`step_cases`): every operation but `load` keeps parameters and boot state
alike. -/
theorem stepsKeepTheParameters : Obligations.StepsKeepTheParameters := fun _ _ => step_keepsLoaded

/-- Settles O31: `exec_next_sameSetup` goes through the instructions one by one. -/
theorem everyInstructionAnswersNext : Obligations.EveryInstructionAnswersNext := fun i s =>
  (exec_next_sameSetup s i).imp fun _ => And.left

end Sys2Proof.Machine

/-! ## What each instruction writes and reads: the general registers (10_state.md R22), I and the timers (R25, R28), PC
(R26), the call stack and RUN (R29, R30) -/

namespace Sys2Proof

/-- The instructions that work on registers, memory and the screen alone: none of them is named as a writer of I, PC,
a timer, the call stack or RUN in 10_state.md R25-R30. -/
def Instr.isData : Instr → Bool
  | .cls | .ldImm _ _ | .addImm _ _ | .ldReg _ _ | .orReg _ _ | .andReg _ _ | .xorReg _ _ | .addReg _ _ | .subReg _ _
  | .shr _ _ | .subn _ _ | .shl _ _ | .rnd _ _ | .drw _ _ _ | .ldVxDt _ | .ldB _ | .ldIVx _ | .ldVxI _ => true
  | _ => false

end Sys2Proof

namespace Sys2Proof.Machine

section
variable (s : State)

/-! ### CALL and RET, by whether they fault -/

theorem exec_call_cases (nnn : Addr) :
    (s.sp = s.cfg.stackDepth ∧
      exec (.call nnn) s = .next (s.raise (.stackOverflow s.instrAddr (encode (.call nnn)) s.sp))) ∨
    (s.sp ≠ s.cfg.stackDepth ∧ exec (.call nnn) s = .next
      { s with pc := zextAddr nnn, stack := Sparse.set StackStore.unlisted s.stack s.sp s.pc, sp := s.sp + 1 }) := by
  by_cases h : s.sp = s.cfg.stackDepth
  · exact .inl ⟨h, exec_call_full s h⟩
  · exact .inr ⟨h, exec_call_room s h⟩

theorem exec_ret_cases :
    (s.sp = 0 ∧ exec .ret s = .next (s.raise (.stackUnderflow s.instrAddr (encode .ret)))) ∨
    (∃ n, s.sp = n + 1 ∧ exec .ret s = .next { s with pc := s.stackEntry n, sp := n }) := by
  cases h : s.sp with
  | zero => exact .inl ⟨rfl, exec_ret_empty s h⟩
  | succ n => exact .inr ⟨n, rfl, exec_ret_held s h⟩

/-! ### The frame of the data instructions -/

/-- `t` has the I, PC, timers and call stack of `s`, and its RUN where no fault was raised. -/
structure SameControl (s t : State) : Prop where
  i : t.i = s.i
  pc : t.pc = s.pc
  dt : t.dt = s.dt
  st : t.st = s.st
  stack : t.stack = s.stack
  sp : t.sp = s.sp
  run : t.run = s.run ∨ ∃ f, t.run = .faulted f

theorem raise_sameControl (f : Fault) : SameControl s (s.raise f) := ⟨rfl, rfl, rfl, rfl, rfl, rfl, .inr ⟨f, rfl⟩⟩

/-- A change of registers, memory, the record of calls and the answers to come is none of these. -/
theorem sameControl_of_data (v : Vector Byte 16) (mem : Memory) (calls : List Call) (inputs : Inputs) (drawn : Nat) :
    SameControl s { s with v := v, mem := mem, calls := calls, inputs := inputs, drawn := drawn } :=
  ⟨rfl, rfl, rfl, rfl, rfl, rfl, .inl rfl⟩

theorem aluFlagged_sameControl (flag result : Byte → Byte → Byte) (x y : RegIdx) :
    SameControl s (s.aluFlagged flag result x y) := by
  rw [State.aluFlagged_eq]
  exact sameControl_of_data s _ _ _ _ _

theorem writeBytes_sameControl (base : Nat) (bs : List Byte) : SameControl s (s.writeBytes base bs) := by
  rw [State.writeBytes_eq]
  exact sameControl_of_data s _ _ _ _ _

theorem loadRegsFrom_sameControl (k : Nat) (bs : List Byte) : SameControl s (s.loadRegsFrom k bs) := by
  rw [State.loadRegsFrom_eq]
  exact sameControl_of_data s _ _ _ _ _

theorem withRange_sameControl {k : State} (i : Instr) (base len : Nat) (h : SameControl s k) :
    SameControl s (s.withRange i base len k) := by
  rcases s.withRange_cases i base len k with ⟨-, e⟩ | ⟨-, e⟩ <;> rw [e]
  · exact h
  · exact raise_sameControl s _

variable {s} {t : State}

/-- A data instruction leaves I, PC, the timers and the call stack alone, and RUN too unless it faults. -/
theorem exec_sameControl {i : Instr} (hi : i.isData = true) (h : exec i s = .next t) : SameControl s t := by
  cases i with
  | cls | ldImm | addImm | ldReg | orReg | andReg | xorReg | rnd | ldVxDt =>
    cases h
    exact sameControl_of_data s _ _ _ _ _
  | addReg | subReg | shr | subn | shl => cases h; exact aluFlagged_sameControl s _ _ _ _
  | drw => cases h; exact withRange_sameControl s _ _ _ (sameControl_of_data s _ _ _ _ _)
  | ldB | ldIVx => cases h; exact withRange_sameControl s _ _ _ (writeBytes_sameControl s _ _)
  | ldVxI => cases h; exact withRange_sameControl s _ _ _ (loadRegsFrom_sameControl s _ _)
  | _ => cases hi

end

/-! ### I, the timers, PC, the call stack and RUN -/

/-- A register value is added to a 16-bit word exactly, mod 65536 (43_io.md R176, 41_extended.md R123). -/
theorem add_zextByte (w : Word) (b : Byte) : w + zextByte b = BitVec.ofNat 16 (w.toNat + b.toNat) := by
  apply BitVec.eq_of_toNat_eq
  simp [zextByte]

/-- The glyph address is five times the register value, which fits 16 bits (43_io.md R177). -/
theorem glyphAddr_eq (b : Byte) : glyphAddr b = BitVec.ofNat 16 (b.toNat * 5) := by
  apply BitVec.eq_of_toNat_eq
  simp [glyphAddr, zextByte, glyphBytes]

/-- Settles O26: the data instructions by their frame, CALL and RET in each of their cases, the skips by what a skip can
do, and the five writers by what they write. -/
theorem indexAndTimerWriters : Obligations.IndexAndTimerWriters := by
  intro i s t h
  cases i with
  | call nnn =>
    rcases exec_call_cases s nnn with ⟨-, e⟩ | ⟨-, e⟩ <;> cases e.symm.trans h <;> exact ⟨rfl, rfl, rfl⟩
  | ret => rcases exec_ret_cases s with ⟨-, e⟩ | ⟨_, -, e⟩ <;> cases e.symm.trans h <;> exact ⟨rfl, rfl, rfl⟩
  | seImm | sneImm | seReg | sneReg | skp | sknp =>
    cases h
    rw [State.skipIf_eq]
    exact ⟨rfl, rfl, rfl⟩
  | addI x => cases h; exact ⟨add_zextByte s.i (s.V x), rfl, rfl⟩
  | ldF x => cases h; exact ⟨glyphAddr_eq (s.V x), rfl, rfl⟩
  | jp | jpV0 | ldI | ldDtVx | ldStVx | ldVxK => cases h; exact ⟨rfl, rfl, rfl⟩
  | _ =>
    have same := exec_sameControl rfl h
    exact ⟨same.i, same.dt, same.st⟩

theorem skipIf_pc (s : State) (b : Bool) : (s.skipIf b).pc = s.pc ∨ (s.skipIf b).pc = s.pc + 2#16 := by
  cases b
  · exact .inl rfl
  · exact .inr rfl

/-- Settles O27: the data instructions by their frame, the writers of PC by what they write there, CALL and RET in each of
their cases. -/
theorem programCounterWriters : Obligations.ProgramCounterWriters := by
  intro i s t h
  cases i with
  | jp => cases h; rfl
  | jpV0 nnn =>
    cases h
    have offset := add_zextByte (zextAddr nnn) (s.V 0x0#4)
    have := nnn.isLt
    rwa [zextAddr, BitVec.toNat_setWidth, Nat.mod_eq_of_lt (by omega)] at offset
  | call nnn =>
    rcases exec_call_cases s nnn with ⟨full, e⟩ | ⟨-, e⟩ <;> cases e.symm.trans h
    · exact .inr ⟨full, rfl⟩
    · exact .inl rfl
  | ret =>
    rcases exec_ret_cases s with ⟨empty, e⟩ | ⟨n, held, e⟩ <;> cases e.symm.trans h
    · exact .inr ⟨empty, rfl⟩
    · exact .inl ⟨n, held, rfl⟩
  | seImm | sneImm | seReg | sneReg => cases h; exact skipIf_pc s _
  | skp x | sknp x => cases h; exact skipIf_pc (s.afterKeyDown (s.V x)) _
  | ldI | addI | ldF | ldDtVx | ldStVx | ldVxK => cases h; rfl
  | _ => exact (exec_sameControl rfl h).pc

/-- Settles O28: parameters and boot state by `exec_sameSetup`; the call stack and RUN of the data instructions by their
frame, and of the others by what they write. -/
theorem stackAndRunStateWriters : Obligations.StackAndRunStateWriters := by
  intro i s t h
  have setup := exec_sameSetup h
  refine and_assoc.mp ⟨?_, setup.cfg, setup.boot⟩
  cases i with
  | call nnn =>
    refine ⟨fun notCall => absurd rfl (notCall nnn), ?_⟩
    rcases exec_call_cases s nnn with ⟨-, e⟩ | ⟨-, e⟩ <;> cases e.symm.trans h
    · exact .inr (.inr ⟨_, rfl⟩)
    · exact .inl rfl
  | ret =>
    refine ⟨fun _ notRet => absurd rfl notRet, ?_⟩
    rcases exec_ret_cases s with ⟨-, e⟩ | ⟨_, -, e⟩ <;> cases e.symm.trans h
    · exact .inr (.inr ⟨_, rfl⟩)
    · exact .inl rfl
  | seImm | sneImm | seReg | sneReg | skp | sknp =>
    cases h
    rw [State.skipIf_eq]
    exact ⟨fun _ _ => ⟨rfl, rfl⟩, .inl rfl⟩
  | ldVxK x => cases h; exact ⟨fun _ _ => ⟨rfl, rfl⟩, .inr (.inl ⟨x, rfl, rfl⟩)⟩
  | jp | jpV0 | ldI | addI | ldF | ldDtVx | ldStVx => cases h; exact ⟨fun _ _ => ⟨rfl, rfl⟩, .inl rfl⟩
  | _ =>
    have same := exec_sameControl rfl h
    exact ⟨fun _ _ => ⟨same.stack, same.sp⟩, same.run.imp_right .inr⟩

/-! ### General registers written -/

section
variable (s : State)

theorem writeBytes_V (base : Nat) (bs : List Byte) (j : RegIdx) : (s.writeBytes base bs).V j = s.V j := by
  rw [State.writeBytes_eq]
  rfl

/-- A fault writes no register, so an access writes those its effect in range writes. -/
theorem withRange_V {k : State} {j : RegIdx} (i : Instr) (base len : Nat) (h : k.V j = s.V j) :
    (s.withRange i base len k).V j = s.V j := by
  rcases s.withRange_cases i base len k with ⟨-, e⟩ | ⟨-, e⟩ <;> rw [e]
  · exact h
  · rfl

/-- A flag-writing operation writes V[x] and VF alone. -/
theorem aluFlagged_V_ne {x j : RegIdx} (flag result : Byte → Byte → Byte) (y : RegIdx)
    (h : (j == x || j == regF) = false) : (s.aluFlagged flag result x y).V j = s.V j := by
  obtain ⟨hx, hF⟩ : j ≠ x ∧ j ≠ regF := by simpa using h
  rw [State.aluFlagged_V, if_neg hx, if_neg hF]

end

/-- Settles O24: a register that is not listed is not the one a register write goes to, and lies above those LD Vx, [I]
loads; every other operation leaves the registers alone. -/
theorem onlyListedRegistersAreWritten : Obligations.OnlyListedRegistersAreWritten := by
  intro i s t j h hw
  cases i with
  | call nnn => rcases exec_call_cases s nnn with ⟨-, e⟩ | ⟨-, e⟩ <;> cases e.symm.trans h <;> rfl
  | ret => rcases exec_ret_cases s with ⟨-, e⟩ | ⟨_, -, e⟩ <;> cases e.symm.trans h <;> rfl
  | seImm | sneImm | seReg | sneReg | skp | sknp => cases h; rw [State.skipIf_eq]; rfl
  | ldImm | addImm | ldReg | orReg | andReg | xorReg | ldVxDt =>
    cases h
    exact State.setV_V_ne s _ (beq_eq_false_iff_ne.mp hw)
  | rnd => cases h; exact State.setV_V_ne s.afterRandom _ (beq_eq_false_iff_ne.mp hw)
  | addReg | subReg | shr | subn | shl => cases h; exact aluFlagged_V_ne s _ _ _ hw
  | drw x y n =>
    cases h
    refine withRange_V s _ _ _ ?_
    rw [State.drawSprite_V, if_neg (beq_eq_false_iff_ne.mp hw)]
  | ldB | ldIVx => cases h; exact withRange_V s _ _ _ (writeBytes_V s _ _ j)
  | ldVxI x =>
    cases h
    have above : x.toNat < j.toNat := by simpa [Instr.writes] using hw
    have := x.isLt
    refine withRange_V s _ _ _ (State.loadRegsFrom_outside s ?_ ?_) <;>
      rw [State.readBytes_length, blockLen_eq] <;> omega
  | _ => cases h; rfl

/-! ### General registers read: every operation, run with another value in a register it does not look at -/

section
variable (s : State) (j : RegIdx) (b : Byte)

theorem setV_setV_self (x : RegIdx) (c : Byte) : (s.setV x b).setV x c = s.setV x c := by
  simp [State.setV, Vector.set_set]

theorem setV_comm {x : RegIdx} (c : Byte) (h : j ≠ x) : (s.setV j b).setV x c = (s.setV x c).setV j b := by
  have h' : j.toNat ≠ x.toNat := fun e => h (BitVec.eq_of_toNat_eq e)
  simp [State.setV, Vector.set_comm _ _ h']

theorem setV_skipIf (c : Bool) : (s.setV j b).skipIf c = (s.skipIf c).setV j b := by
  cases c <;> rfl

theorem setV_writeBytes (base : Nat) (bs : List Byte) :
    (s.setV j b).writeBytes base bs = (s.writeBytes base bs).setV j b := by
  induction bs generalizing s base with
  | nil => rfl
  | cons c bs ih => exact ih (s.writeByte base c) (base + 1)

theorem setV_readBytes (base len : Nat) : (s.setV j b).readBytes base len = s.readBytes base len := by
  simp only [State.readBytes_eq_map, State.setV_readByte]

/-- A block of registers does not show a register above it. -/
theorem setV_regsFrom {k len : Nat} (h : k + len ≤ j.toNat) : (s.setV j b).regsFrom k len = s.regsFrom k len := by
  have := j.isLt
  induction len generalizing k with
  | zero => rfl
  | succ len ih =>
    have ne : BitVec.ofNat 4 k ≠ j := fun e => by
      have := congrArg BitVec.toNat e
      simp only [BitVec.toNat_ofNat] at this
      omega
    rw [State.regsFrom, State.regsFrom, State.setV_V_ne s b ne, ih (by omega)]

/-- Loading registers overwrites another value in one of them, and keeps it in one that is not. -/
theorem setV_loadRegsFrom {k : Nat} {bs : List Byte} (hk : k + bs.length ≤ 16) :
    (s.setV j b).loadRegsFrom k bs =
      if k ≤ j.toNat ∧ j.toNat < k + bs.length then s.loadRegsFrom k bs else (s.loadRegsFrom k bs).setV j b := by
  induction bs generalizing s k with
  | nil => rw [if_neg (by simp only [List.length_nil]; omega)]; rfl
  | cons c bs ih =>
    simp only [List.length_cons] at hk ⊢
    have toNat_k : (BitVec.ofNat 4 k).toNat = k := by simp only [BitVec.toNat_ofNat]; omega
    rw [State.loadRegsFrom, State.loadRegsFrom]
    by_cases hj : j = BitVec.ofNat 4 k
    · rw [hj, setV_setV_self, if_pos (by omega)]
    · have ne : j.toNat ≠ k := fun e => hj (BitVec.eq_of_toNat_eq (e.trans toNat_k.symm))
      rw [setV_comm s j b c hj, ih _ (by omega)]
      exact if_congr (by omega) rfl rfl

/-- A flag-writing operation that does not read V[j] overwrites another value in it where it is VF, and keeps it where
it is not. -/
theorem setV_aluFlagged {x y : RegIdx} (flag result : Byte → Byte → Byte) (hx : j ≠ x) (hy : j ≠ y) :
    (s.setV j b).aluFlagged flag result x y =
      if j = regF then s.aluFlagged flag result x y else (s.aluFlagged flag result x y).setV j b := by
  have flagged (c : Byte) : (s.setV j b).setV regF c =
      if j = regF then s.setV regF c else (s.setV regF c).setV j b := by
    split
    · subst j; exact setV_setV_self s b regF c
    · exact setV_comm s j b c ‹_›
  simp only [State.aluFlagged, State.setV_cfg, State.setV_V_ne s b hx.symm, State.setV_V_ne s b hy.symm, flagged]
  by_cases hF : j = regF
  · simp only [if_pos hF]
  · simp only [if_neg hF, State.setV_V_ne _ b hx.symm, State.setV_V_ne _ b hy.symm]
    cases s.cfg.aluAliasMode <;> exact setV_comm _ j b _ hx

end

/-- `u` is where an instruction ends with the value `b` in V[j] instead of the one with which it ends in `t`, when it
does not read V[j]: the same state where V[j] is written (`w`), and where it is not, or a fault kept it from being, the
same but that V[j] is still `b`. -/
def EndsAlike (j : RegIdx) (b : Byte) (w : Bool) (t u : State) : Prop :=
  (w = true → t.NotFaulted → u = t) ∧ (w = false ∨ ¬ t.NotFaulted → u = t.setV j b)

section
variable {s t u : State} {j : RegIdx} {b : Byte} {w : Bool}

theorem notFaulted_of_running (h : t.run = .running) : t.NotFaulted := by
  simp [State.NotFaulted, h]

theorem EndsAlike.kept (h : u = t.setV j b) : EndsAlike j b false t u :=
  ⟨nofun, fun _ => h⟩

theorem EndsAlike.raised {f : Fault} : EndsAlike j b w (s.raise f) ((s.setV j b).raise f) :=
  ⟨fun _ ok => absurd rfl (ok f), fun _ => rfl⟩

/-- An instruction that does not fault ends the same where V[j] is written, and keeps `b` where it is not. -/
theorem EndsAlike.of_ite (ht : t.run = .running) (h : u = if w = true then t else t.setV j b) :
    EndsAlike j b w t u := by
  subst h
  refine ⟨fun hw _ => if_pos hw, fun hw => if_neg ?_⟩
  simpa using hw.resolve_right (not_not_intro (notFaulted_of_running ht))

/-- An instruction that writes one register. -/
theorem EndsAlike.setV (ht : t.run = .running) (x : RegIdx) (c : Byte) :
    EndsAlike j b (j == x) (t.setV x c) ((t.setV j b).setV x c) := by
  refine .of_ite ht ?_
  by_cases h : j = x
  · subst x; simp [setV_setV_self]
  · simp [h, setV_comm t j b c h]

theorem EndsAlike.aluFlagged {x y : RegIdx} (ht : s.run = .running) (flag result : Byte → Byte → Byte)
    (hx : (j == x) = false) (hy : (j == y) = false) :
    EndsAlike j b (j == x || j == regF) (s.aluFlagged flag result x y) ((s.setV j b).aluFlagged flag result x y) := by
  refine .of_ite (by rw [State.aluFlagged_eq]; exact ht) ?_
  rw [setV_aluFlagged s j b flag result (beq_eq_false_iff_ne.mp hx) (beq_eq_false_iff_ne.mp hy)]
  simp [hx]

/-- The addresses checked do not depend on the registers, so both runs perform their accesses or both fault. -/
theorem EndsAlike.withRange (i : Instr) (base len : Nat) (h : EndsAlike j b w t u) :
    EndsAlike j b w (s.withRange i base len t) ((s.setV j b).withRange i base len u) := by
  rcases s.withRange_cases i base len t with ⟨inRange, e⟩ | ⟨outOfRange, e⟩ <;> rw [e]
  · rwa [State.withRange_in _ inRange]
  · rw [State.withRange_out _ outOfRange]
    exact .raised

end

section
variable {s : State} {j : RegIdx}

/-- SHR and SHL do not look at V[y] (42_alu.md R157, R159): any other register may stand in its place. -/
theorem aluFlagged_shr_second (s : State) (x y z : RegIdx) :
    s.aluFlagged shrFlag shrResult x y = s.aluFlagged shrFlag shrResult x z := rfl

theorem aluFlagged_shl_second (s : State) (x y z : RegIdx) :
    s.aluFlagged shlFlag shlResult x y = s.aluFlagged shlFlag shlResult x z := rfl

/-- A register an instruction does not read shows the same to it in either run. -/
theorem setV_V_of_beq {x : RegIdx} (b : Byte) (h : (j == x) = false) : (s.setV j b).V x = s.V x :=
  State.setV_V_ne s b (Ne.symm (beq_eq_false_iff_ne.mp h))

/-- Two runs of an instruction that differ in a register it does not read: what it reads is the same in both, and each
operation it is made of leads them to states that end alike. -/
theorem exec_endsAlike (i : Instr) (b : Byte) (hr : s.run = .running) (hu : i.reads j = false) :
    ∃ t u, exec i s = .next t ∧ exec i (s.setV j b) = .next u ∧ EndsAlike j b (i.writes j) t u := by
  cases i with
  | cls | jp | ldI | ldVxK => exact ⟨_, _, rfl, rfl, .kept rfl⟩
  | call nnn =>
    rcases exec_call_cases s nnn with ⟨h, e⟩ | ⟨h, e⟩
    · exact ⟨_, _, e, exec_call_full (s.setV j b) h, .raised⟩
    · exact ⟨_, _, e, exec_call_room (s.setV j b) h, .kept rfl⟩
  | ret =>
    rcases exec_ret_cases s with ⟨h, e⟩ | ⟨n, h, e⟩
    · exact ⟨_, _, e, exec_ret_empty (s.setV j b) h, .raised⟩
    · exact ⟨_, _, e, exec_ret_held (s.setV j b) h, .kept rfl⟩
  | seImm x | sneImm x =>
    refine ⟨_, _, rfl, rfl, .kept ?_⟩
    rw [setV_V_of_beq b hu, setV_skipIf]
  | seReg x y | sneReg x y =>
    obtain ⟨hx, hy⟩ := Bool.or_eq_false_iff.mp hu
    refine ⟨_, _, rfl, rfl, .kept ?_⟩
    rw [setV_V_of_beq b hx, setV_V_of_beq b hy, setV_skipIf]
  | skp x | sknp x =>
    refine ⟨_, _, rfl, rfl, .kept ?_⟩
    rw [setV_V_of_beq b hu]
    exact setV_skipIf (s.afterKeyDown (s.V x)) j b _
  | jpV0 nnn | ldDtVx x | ldStVx x | addI x | ldF x =>
    refine ⟨_, _, rfl, rfl, .kept ?_⟩
    rw [setV_V_of_beq b hu]
    rfl
  | ldImm x | ldVxDt x => exact ⟨_, _, rfl, rfl, .setV hr x _⟩
  | rnd x => exact ⟨_, _, rfl, rfl, .setV (t := s.afterRandom) hr x _⟩
  | addImm x | ldReg _ x =>
    refine ⟨_, _, rfl, rfl, ?_⟩
    rw [setV_V_of_beq b hu]
    exact .setV hr _ _
  | orReg x y | andReg x y | xorReg x y =>
    obtain ⟨hx, hy⟩ := Bool.or_eq_false_iff.mp hu
    refine ⟨_, _, rfl, rfl, ?_⟩
    rw [setV_V_of_beq b hx, setV_V_of_beq b hy]
    exact .setV hr x _
  | addReg x y | subReg x y | subn x y =>
    obtain ⟨hx, hy⟩ := Bool.or_eq_false_iff.mp hu
    exact ⟨_, _, rfl, rfl, .aluFlagged hr _ _ hx hy⟩
  | shr x y =>
    refine ⟨_, _, rfl, rfl, ?_⟩
    rw [aluFlagged_shr_second s x y x, aluFlagged_shr_second _ x y x]
    exact .aluFlagged hr _ _ hu hu
  | shl x y =>
    refine ⟨_, _, rfl, rfl, ?_⟩
    rw [aluFlagged_shl_second s x y x, aluFlagged_shl_second _ x y x]
    exact .aluFlagged hr _ _ hu hu
  | drw x y n =>
    obtain ⟨hx, hy⟩ := Bool.or_eq_false_iff.mp hu
    refine ⟨_, _, rfl, rfl, .withRange _ _ _ ?_⟩
    simp only [State.drawSprite, setV_V_of_beq b hx, setV_V_of_beq b hy, setV_readBytes]
    exact .setV (t := s.afterDraw _ _ _ _) hr regF _
  | ldB x =>
    refine ⟨_, _, rfl, rfl, .withRange _ _ _ (.kept ?_)⟩
    rw [setV_V_of_beq b hu]
    exact setV_writeBytes s j b _ _
  | ldIVx x =>
    refine ⟨_, _, rfl, rfl, .withRange _ _ _ (.kept ?_)⟩
    have above : 0 + blockLen x ≤ j.toNat := by
      have : x.toNat < j.toNat := by simpa [Instr.reads] using hu
      rw [blockLen_eq]
      omega
    rw [setV_regsFrom s j b above]
    exact setV_writeBytes s j b _ _
  | ldVxI x =>
    have := x.isLt
    refine ⟨_, _, rfl, rfl, .withRange _ _ _ (.of_ite (by rw [State.loadRegsFrom_eq]; exact hr) ?_)⟩
    rw [setV_readBytes, setV_loadRegsFrom s j b (by rw [State.readBytes_length, blockLen_eq]; omega),
      State.readBytes_length, blockLen_eq]
    exact if_congr (by simp only [Instr.writes, decide_eq_true_eq]; omega) rfl rfl

end

/-- Settles O25, by `exec_endsAlike`. -/
theorem unreadRegistersDoNotMatter : Obligations.UnreadRegistersDoNotMatter := fun i _ _ b hr hu =>
  exec_endsAlike i b hr hu

end Sys2Proof.Machine

/-! ## Memory (20_memory.md): the fetch, what instructions store, and the invariant of every step -/

namespace Sys2Proof

open Laws.DecodesToItself in
/-- Decoding the encoding of an instruction gives it back, whatever the instruction (30_encoding.md R74). -/
theorem decode_encode : ∀ i : Instr, decode (encode i) = .ok i
  | .cls => cls
  | .ret => ret
  | .jp nnn => jp nnn
  | .call nnn => call nnn
  | .seImm x kk => seImm x kk
  | .sneImm x kk => sneImm x kk
  | .seReg x y => seReg x y
  | .ldImm x kk => ldImm x kk
  | .addImm x kk => addImm x kk
  | .ldReg x y => ldReg x y
  | .orReg x y => orReg x y
  | .andReg x y => andReg x y
  | .xorReg x y => xorReg x y
  | .addReg x y => addReg x y
  | .subReg x y => subReg x y
  | .shr x y => shr x y
  | .subn x y => subn x y
  | .shl x y => shl x y
  | .sneReg x y => sneReg x y
  | .ldI nnn => ldI nnn
  | .jpV0 nnn => jpV0 nnn
  | .rnd x kk => rnd x kk
  | .drw x y n => drw x y n
  | .skp x => skp x
  | .sknp x => sknp x
  | .ldVxDt x => ldVxDt x
  | .ldVxK x => ldVxK x
  | .ldDtVx x => ldDtVx x
  | .ldStVx x => ldStVx x
  | .addI x => addI x
  | .ldF x => ldF x
  | .ldB x => ldB x
  | .ldIVx x => ldIVx x
  | .ldVxI x => ldVxI x

/-- The bytes of a word as memory holds them join to the word (20_memory.md R53). -/
theorem joinBytes_highByte_lowByte (w : Word) : joinBytes (highByte w) (lowByte w) = w :=
  BitVec.eq_of_toNat_eq (by
    have := w.isLt
    simp only [joinBytes, highByte, lowByte, append_toNat, BitVec.extractLsb'_toNat, Nat.shiftRight_eq_div_pow]
    omega)

end Sys2Proof

namespace Sys2Proof.Machine

/-! ### What the instructions store (20_memory.md R50, R55) -/

section
variable {s t : State}

/-- What memory reads as depends on the parameters and the bytes stored alone. -/
theorem readByte_congr (hc : t.cfg = s.cfg) (hm : t.mem = s.mem) (a : Nat) : t.readByte a = s.readByte a := by
  rw [State.readByte, State.readByte, hc, hm]

/-- A fault stores nothing, so an access stores what its effect in range stores. -/
theorem withRange_mem {k : State} (i : Instr) (base len : Nat) (h : k.mem = s.mem) :
    (s.withRange i base len k).mem = s.mem := by
  rcases s.withRange_cases i base len k with ⟨-, e⟩ | ⟨-, e⟩ <;> rw [e]
  · exact h
  · rfl

/-- Every instruction but LD B and LD [I] leaves memory as it is. -/
theorem exec_mem {i : Instr} (h : exec i s = .next t) (notB : ∀ x, i ≠ .ldB x) (notI : ∀ x, i ≠ .ldIVx x) :
    t.mem = s.mem := by
  cases i with
  | call nnn => rcases exec_call_cases s nnn with ⟨-, e⟩ | ⟨-, e⟩ <;> cases e.symm.trans h <;> rfl
  | ret => rcases exec_ret_cases s with ⟨-, e⟩ | ⟨_, -, e⟩ <;> cases e.symm.trans h <;> rfl
  | seImm | sneImm | seReg | sneReg | skp | sknp => cases h; rw [State.skipIf_eq]; rfl
  | addReg | subReg | shr | subn | shl => cases h; rw [State.aluFlagged_eq]
  | drw => cases h; exact withRange_mem _ _ _ rfl
  | ldVxI => cases h; exact withRange_mem _ _ _ (by rw [State.loadRegsFrom_eq])
  | ldB x => exact absurd rfl (notB x)
  | ldIVx x => exact absurd rfl (notI x)
  | _ => cases h; rfl

theorem exec_ldB_outside {x : RegIdx} {a : Nat} (h : exec (.ldB x) s = .next t)
    (ha : a < s.i.toNat ∨ s.i.toNat + 3 ≤ a) : t.readByte a = s.readByte a := by
  rcases exec_ldB_cases s x with ⟨-, e⟩ | ⟨-, e⟩ <;> cases e.symm.trans h
  · exact State.readByte_writeBytes_outside ha
  · rfl

theorem exec_ldIVx_outside {x : RegIdx} {a : Nat} (h : exec (.ldIVx x) s = .next t)
    (ha : a < s.i.toNat ∨ s.i.toNat + blockLen x ≤ a) : t.readByte a = s.readByte a := by
  rcases exec_ldIVx_cases s x with ⟨-, e⟩ | ⟨-, e⟩ <;> cases e.symm.trans h
  · exact State.readByte_writeBytes_outside (by rwa [State.regsFrom_length])
  · rfl

end

/-- Settles O29: by `exec_mem` memory changes by LD B and LD [I] alone, and what these write lies at the bytes they
access. -/
theorem memoryWriters : Obligations.MemoryWriters := by
  intro i s t h
  have kept (notB : ∀ x, i ≠ .ldB x) (notI : ∀ x, i ≠ .ldIVx x) :
      t.mem = s.mem ∧ ∀ a, t.readByte a = s.readByte a :=
    have hm := exec_mem h notB notI
    ⟨hm, readByte_congr (exec_sameSetup h).cfg hm⟩
  refine ⟨kept, fun a ha => ?_⟩
  cases i with
  | ldB => exact exec_ldB_outside h ha
  | ldIVx => exact exec_ldIVx_outside h ha
  | _ => exact (kept nofun nofun).2 a

/-! ### The invariant -/

section
variable {s t : State}

theorem exec_call_inv {nnn : Addr} (hs : s.Inv) (h : exec (.call nnn) s = .next t) : t.Inv := by
  rcases exec_call_cases s nnn with ⟨-, e⟩ | ⟨room, e⟩ <;> cases e.symm.trans h
  · exact State.inv_of_same s hs rfl rfl rfl rfl
  · exact State.inv_of_same _ (State.push_inv s hs (State.push_room s room)) rfl rfl rfl rfl

theorem exec_ret_inv (hs : s.Inv) (h : exec .ret s = .next t) : t.Inv := by
  rcases exec_ret_cases s with ⟨-, e⟩ | ⟨n, held, e⟩ <;> cases e.symm.trans h
  · exact State.inv_of_same s hs rfl rfl rfl rfl
  · exact State.inv_of_same _ (State.pop_inv s hs (State.pop_held s held)) rfl rfl rfl rfl

theorem exec_ldB_inv {x : RegIdx} (hs : s.Inv) (h : exec (.ldB x) s = .next t) : t.Inv := by
  rcases exec_ldB_cases s x with ⟨inRange, e⟩ | ⟨-, e⟩ <;> cases e.symm.trans h
  · exact State.writeBytes_inv s hs inRange
  · exact State.inv_of_same s hs rfl rfl rfl rfl

theorem exec_ldIVx_inv {x : RegIdx} (hs : s.Inv) (h : exec (.ldIVx x) s = .next t) : t.Inv := by
  rcases exec_ldIVx_cases s x with ⟨inRange, e⟩ | ⟨-, e⟩ <;> cases e.symm.trans h
  · exact State.writeBytes_inv s hs (by rwa [State.regsFrom_length])
  · exact State.inv_of_same s hs rfl rfl rfl rfl

/-- Every instruction keeps the invariant: CALL and RET by the call-stack controller, LD B and LD [I] by the range
check before their stores, and the others because they write nothing the invariant looks at. -/
theorem exec_inv {i : Instr} (hs : s.Inv) (h : exec i s = .next t) : t.Inv := by
  cases i with
  | call => exact exec_call_inv hs h
  | ret => exact exec_ret_inv hs h
  | ldB => exact exec_ldB_inv hs h
  | ldIVx => exact exec_ldIVx_inv hs h
  | _ =>
    obtain ⟨stackKept, -, cfgKept, -⟩ := stackAndRunStateWriters _ _ _ h
    obtain ⟨entries, sp⟩ := stackKept nofun nofun
    exact State.inv_of_same s hs cfgKept (exec_mem h nofun nofun) entries sp

theorem unrecognised_inv (hs : s.Inv) (op : Word) : (s.unrecognised op).Inv := by
  rcases s.unrecognised_cases op with ⟨-, e⟩ | ⟨-, e⟩ <;> rw [e]
  · exact hs
  · exact State.inv_of_same s hs rfl rfl rfl rfl

theorem keyEvent_inv (hs : s.Inv) (x : RegIdx) : (s.keyEvent x).Inv := by
  have event (raw : Nat) : (s.afterKeyEvent raw).Inv := State.inv_of_same s hs rfl rfl rfl rfl
  rcases s.keyEvent_cases x with ⟨-, e⟩ | ⟨raw, -, -, e⟩ | ⟨raw, _, -, -, e⟩ <;> rw [e]
  · exact State.inv_of_same s hs rfl rfl rfl rfl
  · exact event raw
  · exact State.inv_of_same _ (event raw) rfl rfl rfl rfl

theorem afterTurn_inv (hs : s.Inv) : s.afterTurn.Inv :=
  State.inv_of_same s hs s.afterTurn_cfg s.afterTurn_mem s.afterTurn_stack s.afterTurn_sp

theorem instrStep_inv (hs : s.Inv) (h : instrStep s = .next t) : t.Inv := by
  have fetched : s.advance.Inv := State.inv_of_same s hs rfl rfl rfl rfl
  rcases instrStep_cases s with ⟨-, e⟩ | ⟨-, _, -, e⟩ | ⟨-, i, -, e⟩
  · cases e.symm.trans h
    exact State.inv_of_same s hs rfl rfl rfl rfl
  · cases e.symm.trans h
    exact unrecognised_inv fetched _
  · exact exec_inv fetched (e.symm.trans h)

theorem step_inv (hs : s.Inv) (h : step s = .next t) : t.Inv := by
  rcases step_cases s with
    ⟨_, -, e⟩ | ⟨-, -, e⟩ | ⟨image, -, -, e⟩ | ⟨-, -, -, e⟩ | ⟨x, -, -, -, e⟩ | ⟨-, -, -, e⟩ <;> rw [e] at h
  · cases h
  · obtain rfl := Host.Outcome.next.inj h
    exact hs
  · obtain rfl := Host.Outcome.next.inj h
    exact State.load_inv s hs
  · obtain rfl := Host.Outcome.next.inj h
    exact State.inv_of_same _ (afterTurn_inv hs) rfl rfl rfl rfl
  · obtain rfl := Host.Outcome.next.inj h
    exact keyEvent_inv (afterTurn_inv hs) x
  · exact instrStep_inv (afterTurn_inv hs) h

end

/-- Settles O19, from what one step can do (`step_cases`): `load`, the tick, the key event and the instruction step each
keep the invariant. -/
theorem everyStepKeepsTheInvariant : Obligations.EveryStepKeepsTheInvariant := fun _ _ => step_inv

/-! ### The fetch (20_memory.md R65) -/

section
variable {s : State}

/-- In range, a word that decodes is executed after 2 is added to PC. -/
theorem instrStep_decoded {i : Instr} (inRange : s.pc.toNat + 2 ≤ memSize)
    (hd : decode (s.wordAt s.pc.toNat) = .ok i) : instrStep s = exec i s.advance := by
  rcases instrStep_cases s with ⟨out, -⟩ | ⟨-, _, he, -⟩ | ⟨-, j, hj, e⟩
  · omega
  · cases he.symm.trans hd
  · cases hj.symm.trans hd
    exact e

/-- Out of range, the fetch faults and PC stays. -/
theorem instrStep_outOfRange (out : memSize < s.pc.toNat + 2) :
    instrStep s = .next (s.raise (.memRange (max s.pc.toNat memSize) s.pc none)) := by
  rcases instrStep_cases s with ⟨-, e⟩ | ⟨inRange, -⟩ | ⟨inRange, -⟩
  · exact e
  · omega
  · omega

end

/-- Settles O7, by `instrStep_decoded`: taking the turn changes neither PC nor the bytes there. -/
theorem stepRunsDecodedInstruction : Obligations.StepRunsDecodedInstruction := by
  intro s i hr hb ht inRange hd
  rw [step_running s hr hb ht, instrStep_decoded (i := i) (by rwa [State.afterTurn_pc])
    (by rwa [State.afterTurn_pc, State.afterTurn_wordAt]),
    State.advance, State.afterTurn_pc]
  rfl

/-- Settles O8, by `instrStep_outOfRange`: taking the turn does not change PC. -/
theorem fetchOutOfRangeFaults : Obligations.FetchOutOfRangeFaults := by
  intro s hr hb ht out
  rw [step_running s hr hb ht, instrStep_outOfRange (by simpa using out), State.afterTurn_pc]
  rfl

/-! ### Words stored and fetched again (20_memory.md R53, R64) -/

section
variable {s : State}

/-- Bytes stored are fetched: the first two of them are the word at their address. -/
theorem wordAt_writeBytes {base : Nat} {bs : List Byte} (hs : Memory.wf s.cfg s.mem = true)
    (fits : base + bs.length ≤ memSize) (two : 1 < bs.length) :
    (s.writeBytes base bs).wordAt base = joinBytes (bs[0]'(by omega)) bs[1] := by
  have first := State.readByte_writeBytes_inside hs fits (k := 0) (by omega)
  have second := State.readByte_writeBytes_inside hs fits (k := 1) two
  exact congrArg₂ joinBytes first second

theorem writeBytes_pc (base : Nat) (bs : List Byte) : (s.writeBytes base bs).pc = s.pc := by
  rw [State.writeBytes_eq]

end

/-- Settles O55, by `wordAt_writeBytes`: the first two registers LD [I] stores at I = PC are V0 and V1. -/
theorem storesAreSeenByTheNextFetch : Obligations.StoresAreSeenByTheNextFetch := by
  intro s x hs hx hi hpc
  have two : 1 < blockLen x := by rw [blockLen_eq]; omega
  have fits : s.i.toNat + blockLen x ≤ memSize := by rw [hi]; exact hpc
  rcases exec_ldIVx_cases s x with ⟨-, e⟩ | ⟨out, -⟩
  · refine ⟨_, e, writeBytes_pc _ _, ?_⟩
    rw [writeBytes_pc, ← hi,
      wordAt_writeBytes hs.mem (by rwa [State.regsFrom_length]) (by rwa [State.regsFrom_length]),
      State.regsFrom_getElem s (by omega), State.regsFrom_getElem s two]
    rfl
  · omega

/-! ### The word the host places (log 7) -/

/-- Where the host places a word: at PC, or at the entry point where no program is loaded. -/
def State.placeAddr (s : State) : Word := if s.boot = .loaded then s.pc else 0x200#16

/-- `s` loaded and running at `a`, with the word `op` stored there. -/
def State.holding (s : State) (a op : Word) : State :=
  { s with mem := (s.writeBytes a.toNat [highByte op, lowByte op]).mem, pc := a, run := .running, boot := .loaded }

/-- `s` with the core's turn put first. -/
def State.coreFirst (s : State) : State := { s with inputs := { s.inputs with turns := .core :: s.inputs.turns } }

section
variable (s : State)

theorem withFetchWord_toNat (op : Word) : s.withFetchWord 16 op.toNat = s.placeWord op := by
  rw [State.withFetchWord, Nat.mod_eq_of_lt op.isLt, BitVec.ofNat_toNat, BitVec.setWidth_eq]

theorem placeWord_eq (op : Word) : s.placeWord op = (s.holding s.placeAddr op).coreFirst := by
  rw [State.placeWord, State.placeAddr, State.holding]
  cases hb : s.boot with
  | loaded => simp [State.coreFirst, State.setRun, State.writeByte, hb]
  | _ => rfl

theorem nextTurn_coreFirst (hr : s.run = .running) : s.coreFirst.nextTurn = .core := by
  simp [State.coreFirst, State.nextTurn, State.tickEnabled, hr]

/-- Taking the turn that was put first leaves the turns as they were. -/
theorem afterTurn_coreFirst (hr : s.run = .running) : s.coreFirst.afterTurn = { s with drawn := s.drawn + 1 } := by
  simp [State.coreFirst, State.afterTurn, State.tickEnabled, hr]

variable {s}

theorem placeAddr_inRange (h : s.boot = .loaded → s.pc.toNat + 2 ≤ memSize) : s.placeAddr.toNat + 2 ≤ memSize := by
  rw [State.placeAddr]
  split
  · exact h ‹_›
  · decide

theorem toNat_add_two {a : Word} (h : a.toNat + 2 ≤ memSize) : (a + 2#16).toNat = a.toNat + 2 := by
  simp only [memSize] at h
  rw [BitVec.toNat_add, BitVec.toNat_ofNat]
  omega

theorem wordAt_holding {a : Word} (hs : Memory.wf s.cfg s.mem = true) (inRange : a.toNat + 2 ≤ memSize) (op : Word) :
    (s.holding a op).wordAt a.toNat = op :=
  (wordAt_writeBytes hs (bs := [highByte op, lowByte op]) inRange (by simp)).trans (joinBytes_highByte_lowByte op)

theorem readByte_holding_outside {a : Word} {b : Nat} (op : Word) (h : b < a.toNat ∨ a.toNat + 2 ≤ b) :
    (s.holding a op).readByte b = s.readByte b :=
  State.readByte_writeBytes_outside (bs := [highByte op, lowByte op]) h

/-- The step from a placed word runs its instruction, the turn put first taken and PC two past the word. -/
theorem step_placeWord (i : Instr) (hs : Memory.wf s.cfg s.mem = true) (inRange : s.placeAddr.toNat + 2 ≤ memSize) :
    step (s.placeWord (encode i)) =
      exec i { s.holding s.placeAddr (encode i) with drawn := s.drawn + 1, pc := s.placeAddr + 2#16 } := by
  have fetched : (s.holding s.placeAddr (encode i)).wordAt s.placeAddr.toNat = encode i := wordAt_holding hs inRange _
  have decoded := (congrArg decode fetched).trans (decode_encode i)
  have ran := stepRunsDecodedInstruction (s.holding s.placeAddr (encode i)).coreFirst i rfl rfl
    (nextTurn_coreFirst _ rfl) inRange decoded
  rw [afterTurn_coreFirst _ rfl] at ran
  rwa [placeWord_eq]

end

/-- Settles O15, by `step_placeWord`: the host stores the two bytes of the word, and nothing else but the fields named
differs. -/
theorem placedWordRunsNext : Obligations.PlacedWordRunsNext := by
  intro s i hs hpc
  have inRange := placeAddr_inRange hpc
  rw [withFetchWord_toNat]
  refine ⟨_, step_placeWord i hs.mem inRange, rfl, rfl, fun loaded => ?_, fun notLoaded => ?_, fun a h2 h1 => ?_, rfl⟩
  · exact congrArg (· + 2#16) (if_pos loaded)
  · exact congrArg (· + 2#16) (if_neg notLoaded)
  · rw [toNat_add_two inRange] at h1 h2
    have outside : a < s.placeAddr.toNat ∨ s.placeAddr.toNat + 2 ≤ a := by omega
    exact readByte_holding_outside (s := s) (encode i) outside

end Sys2Proof.Machine

/-! ## The decoder and the encoder (30_encoding.md) -/

namespace Sys2Proof

/-! ### The encoder's words decoded again (30_encoding.md R70, R73) -/

/-- The bytes of an instruction decode to it and leave what stands after them. -/
theorem decodeBytes_encodeBytes (i : Instr) (rest : List Byte) :
    decodeBytes (encodeBytes i ++ rest) = .ok (i, rest) := by
  rw [encodeBytes, List.cons_append, List.cons_append, List.nil_append, decodeBytes_cons, joinBytes_bytes,
    decode_encode]
  rfl

/-- Settles O1, by `decode_encode` and what it gives for the bytes. -/
theorem decodeOfEncodeIsIdentity : Obligations.DecodeOfEncodeIsIdentity := fun i =>
  ⟨decode_encode i, decodeBytes_encodeBytes i⟩

/-! ### The canonical word (30_encoding.md R73, R79) -/

section
variable {op : Word} {v : BitVec 4}

theorem canonicalWord_of_examined (h : opHigh op = v) (h5 : v ≠ 0x5#4) (h9 : v ≠ 0x9#4) : canonicalWord op = op :=
  if_neg (by simp [h, h5, h9])

theorem canonicalWord_of_unexamined (h : opHigh op = v) (h59 : v = 0x5#4 ∨ v = 0x9#4) :
    canonicalWord op = formatXYN v (opX op) (opY op) 0x0#4 := by
  subst h
  rw [canonicalWord, if_pos h59, and_clear_low]

theorem formatA_eq_canonicalWord (h : opHigh op = v) (h5 : v ≠ 0x5#4) (h9 : v ≠ 0x9#4) :
    formatA v (opNnn op) = canonicalWord op := by
  rw [canonicalWord_of_examined h h5 h9, ← h, formatA_fields]

theorem formatXK_eq_canonicalWord {kk : Byte} (h : opHigh op = v) (h5 : v ≠ 0x5#4) (h9 : v ≠ 0x9#4)
    (hk : opKk op = kk) : formatXK v (opX op) kk = canonicalWord op := by
  rw [canonicalWord_of_examined h h5 h9, ← h, ← hk, formatXK_fields]

theorem formatXYN_eq_canonicalWord {n : Nibble} (h : opHigh op = v) (h5 : v ≠ 0x5#4) (h9 : v ≠ 0x9#4)
    (hn : opN op = n) : formatXYN v (opX op) (opY op) n = canonicalWord op := by
  rw [canonicalWord_of_examined h h5 h9, ← h, ← hn, formatXYN_fields]

end

/-! ### What the decoder answers (30_encoding.md R74-R80) -/

/-- The unrecognised space of each reason to reject (30_encoding.md R80). -/
def DecodeReject.Space : DecodeReject → Word → Prop
  | .group0, op => opHigh op = 0x0#4 ∧ op ≠ 0x00E0#16 ∧ op ≠ 0x00EE#16
  | .group8, op => opHigh op = 0x8#4 ∧ opN op ∈ [0x8#4, 0x9#4, 0xA#4, 0xB#4, 0xC#4, 0xD#4, 0xF#4]
  | .groupE, op => opHigh op = 0xE#4 ∧ opKk op ∉ [0x9E#8, 0xA1#8]
  | .groupF, op => opHigh op = 0xF#4 ∧
      opKk op ∉ [0x07#8, 0x0A#8, 0x15#8, 0x18#8, 0x1E#8, 0x29#8, 0x33#8, 0x55#8, 0x65#8]
  | .truncated, _ => False

/-- What an answer to `op` says of it: an instruction is the one of its canonical word, a reason to reject names the
space the word lies in. -/
def AnswerFits (op : Word) : Except DecodeReject Instr → Prop
  | .ok i => encode i = canonicalWord op
  | .error e => e.Space op

/-- The unrecognised low nibbles of group 8 are those that are no selector (42_alu.md R160). -/
theorem alu_unrecognised_iff (n : Nibble) :
    n ∈ [0x8#4, 0x9#4, 0xA#4, 0xB#4, 0xC#4, 0xD#4, 0xF#4] ↔
      n ∉ [0x0#4, 0x1#4, 0x2#4, 0x3#4, 0x4#4, 0x5#4, 0x6#4, 0x7#4, 0xE#4] := by
  decide +revert

/-- The groups 0, 8, E and F, which select further and have unrecognised words, and the others, which do not
(30_encoding.md R76-R80). -/
theorem group_cases (v : BitVec 4) :
    v = 0x0#4 ∨ v ∈ [0x1#4, 0x2#4, 0x3#4, 0x4#4, 0x5#4, 0x6#4, 0x7#4] ∨ v = 0x8#4 ∨
    v ∈ [0x9#4, 0xA#4, 0xB#4, 0xC#4, 0xD#4] ∨ v = 0xE#4 ∨ v = 0xF#4 := by
  decide +revert

section
variable (op : Word)

theorem decodeAlu_fits (h : opHigh op = 0x8#4) : AnswerFits op (decodeAlu op) := by
  unfold decodeAlu
  split
  case h_10 => exact ⟨h, (alu_unrecognised_iff (opN op)).mpr (by simp_all)⟩
  all_goals exact formatXYN_eq_canonicalWord h (by decide) (by decide) ‹_›

theorem decodeKeySkip_fits (h : opHigh op = 0xE#4) : AnswerFits op (decodeKeySkip op) := by
  unfold decodeKeySkip
  split
  case h_3 => exact ⟨h, by simp_all⟩
  all_goals exact formatXK_eq_canonicalWord h (by decide) (by decide) ‹_›

theorem decodeIo_fits (h : opHigh op = 0xF#4) : AnswerFits op (decodeIo op) := by
  unfold decodeIo
  split
  case h_10 => exact ⟨h, by simp_all⟩
  all_goals exact formatXK_eq_canonicalWord h (by decide) (by decide) ‹_›

theorem decodeExtended_fits (h1 : op ≠ 0x00E0#16) (h2 : op ≠ 0x00EE#16) : AnswerFits op (decodeExtended op) := by
  unfold decodeExtended
  split
  case h_1 h => exact ⟨h, h1, h2⟩
  case h_9 h => exact decodeAlu_fits op h
  case h_15 h => exact decodeKeySkip_fits op h
  case h_16 => exact decodeIo_fits op (by have := group_cases (opHigh op); simp_all)
  case h_6 h | h_10 h => exact (canonicalWord_of_unexamined h (by decide)).symm
  case h_14 h => exact formatXYN_eq_canonicalWord h (by decide) (by decide) rfl
  case h_2 h | h_3 h | h_11 h | h_12 h => exact formatA_eq_canonicalWord h (by decide) (by decide)
  all_goals exact formatXK_eq_canonicalWord ‹_› (by decide) (by decide) rfl

/-- What the decoder answers fits the word: the one walk through the dispatch tree. -/
theorem decode_fits : AnswerFits op (decode op) := by
  unfold decode
  split
  case isTrue h => subst h; rfl
  case isFalse h1 =>
    split
    case isTrue h => subst h; rfl
    case isFalse h2 => exact decodeExtended_fits op h1 h2

variable {op}

theorem encode_of_decode {i : Instr} (h : decode op = .ok i) : encode i = canonicalWord op := by
  have fits := decode_fits op
  rwa [h] at fits

theorem space_of_decode {e : DecodeReject} (h : decode op = .error e) : e.Space op := by
  have fits := decode_fits op
  rwa [h] at fits

/-- Settles O2, by `encode_of_decode`: the canonical word is an encoding, which decodes to its instruction. -/
theorem encodeOfDecodeIsCanonical : Obligations.EncodeOfDecodeIsCanonical := fun _ i h =>
  have canonical := encode_of_decode h
  ⟨canonical, canonical ▸ decode_encode i⟩

/-! ### The unrecognised spaces (30_encoding.md R80) -/

theorem decode_of_group8 (h : opHigh op = 0x8#4) : decode op = decodeAlu op := by
  rw [decode_of_high (by rw [h]; decide), decodeExtended, h]
  rfl

theorem decode_of_groupE (h : opHigh op = 0xE#4) : decode op = decodeKeySkip op := by
  rw [decode_of_high (by rw [h]; decide), decodeExtended, h]
  rfl

theorem decode_of_groupF (h : opHigh op = 0xF#4) : decode op = decodeIo op := by
  rw [decode_of_high (by rw [h]; decide), decodeExtended, h]
  rfl

theorem decode_of_space : ∀ {e : DecodeReject}, e.Space op → decode op = .error e
  | .group0, ⟨h, h1, h2⟩ => by
    rw [decode, if_neg h1, if_neg h2, decodeExtended, h]
    rfl
  | .group8, ⟨h, hn⟩ => by
    rw [decode_of_group8 h]
    unfold decodeAlu
    split
    case h_10 => rfl
    all_goals simp_all
  | .groupE, ⟨h, hk⟩ => by
    rw [decode_of_groupE h]
    unfold decodeKeySkip
    split
    case h_3 => rfl
    all_goals simp_all
  | .groupF, ⟨h, hk⟩ => by
    rw [decode_of_groupF h]
    unfold decodeIo
    split
    case h_10 => rfl
    all_goals simp_all

/-- The decoder rejects a word under a name exactly when the word lies in the space of that name. -/
theorem decode_error_iff {e : DecodeReject} : decode op = .error e ↔ e.Space op := ⟨space_of_decode, decode_of_space⟩

/-- Settles O4, by `decode_error_iff` for each name. -/
theorem unrecognisedSpacesByName : Obligations.UnrecognisedSpacesByName := fun _ =>
  ⟨decode_error_iff, decode_error_iff, decode_error_iff, decode_error_iff, space_of_decode⟩

end

/-! ### The opcode table (30_encoding.md R80, R83) -/

section
variable (op : Word)

/-- Rows that match one word agree in the bits both fix. -/
theorem OpcodeRow.overlaps_of_matches {r q : OpcodeRow} (hr : r.matches op = true) (hq : q.matches op = true) :
    r.overlaps q = true := by
  simp only [OpcodeRow.matches, beq_iff_eq] at hr hq
  rw [OpcodeRow.overlaps, beq_iff_eq, ← hr, ← hq]
  ext j
  simp only [BitVec.getElem_and, BitVec.getElem_xor, BitVec.getElem_zero]
  cases op[j] <;> cases r.mask[j] <;> cases q.mask[j] <;> rfl

/-- No two rows overlap, so a word matches at most one. -/
theorem length_filter_matches_le_one : (opcodeTable.filter fun r => r.matches op).length ≤ 1 := by
  have apart : opcodeTable.Pairwise fun r q => r.overlaps q = false := by decide
  have kept := apart.filter fun r => r.matches op
  have matching : ∀ r ∈ opcodeTable.filter fun r => r.matches op, r.matches op = true := fun _ hr =>
    (List.mem_filter.mp hr).2
  by_contra two
  rw [Nat.not_le] at two
  have overlap := OpcodeRow.overlaps_of_matches op (matching _ (List.getElem_mem (Nat.zero_lt_of_lt two)))
    (matching _ (List.getElem_mem two))
  have distinct := List.pairwise_iff_getElem.mp kept 0 1 (Nat.zero_lt_of_lt two) two Nat.one_pos
  exact absurd overlap (Bool.eq_false_iff.mp distinct)

theorem length_filter_matches :
    (opcodeTable.filter fun r => r.matches op).length = if wellFormedWord op then 1 else 0 := by
  have atMost := length_filter_matches_le_one op
  have some_iff : 0 < (opcodeTable.filter fun r => r.matches op).length ↔ wellFormedWord op = true := by
    rw [← List.countP_eq_length_filter, List.countP_pos_iff, wellFormedWord, List.any_eq_true]
  by_cases hw : wellFormedWord op = true
  · rw [if_pos hw]
    exact Nat.le_antisymm atMost (some_iff.mpr hw)
  · rw [if_neg hw]
    exact Nat.eq_zero_of_not_pos (mt some_iff.mp hw)

theorem OpcodeRow.matches_high (name : String) {w : Word} (hw : formatXYN (w.extractLsb' 12 4) 0#4 0#4 0#4 = w) :
    (⟨name, 0xF000#16, w⟩ : OpcodeRow).matches op = true ↔ opHigh op = w.extractLsb' 12 4 := by
  rw [OpcodeRow.matches, beq_iff_eq, ← and_high_eq, hw]

theorem OpcodeRow.matches_high_low (name : String) {w : Word}
    (hw : formatXYN (w.extractLsb' 12 4) 0#4 0#4 (w.extractLsb' 0 4) = w) :
    (⟨name, 0xF00F#16, w⟩ : OpcodeRow).matches op = true ↔
      opHigh op = w.extractLsb' 12 4 ∧ opN op = w.extractLsb' 0 4 := by
  rw [OpcodeRow.matches, beq_iff_eq, ← and_high_low_eq, hw]

theorem OpcodeRow.matches_high_byte (name : String) {w : Word}
    (hw : formatXK (w.extractLsb' 12 4) 0#4 (w.extractLsb' 0 8) = w) :
    (⟨name, 0xF0FF#16, w⟩ : OpcodeRow).matches op = true ↔
      opHigh op = w.extractLsb' 12 4 ∧ opKk op = w.extractLsb' 0 8 := by
  rw [OpcodeRow.matches, beq_iff_eq, ← and_high_byte_eq, hw]

theorem OpcodeRow.matches_all (name : String) (w : Word) :
    (⟨name, 0xFFFF#16, w⟩ : OpcodeRow).matches op = true ↔ op = w := by
  rw [OpcodeRow.matches, beq_iff_eq, and_all_eq]

variable {op}

/-- The rows of the table by the fields they fix, in the order of the table. -/
theorem wellFormedWord_iff : wellFormedWord op = true ↔
    (opHigh op = 0x0#4 ∧ (op = 0x00E0#16 ∨ op = 0x00EE#16)) ∨
    opHigh op ∈ [0x1#4, 0x2#4, 0x3#4, 0x4#4, 0x5#4, 0x6#4, 0x7#4] ∨
    (opHigh op = 0x8#4 ∧ opN op ∈ [0x0#4, 0x1#4, 0x2#4, 0x3#4, 0x4#4, 0x5#4, 0x6#4, 0x7#4, 0xE#4]) ∨
    opHigh op ∈ [0x9#4, 0xA#4, 0xB#4, 0xC#4, 0xD#4] ∨
    (opHigh op = 0xE#4 ∧ opKk op ∈ [0x9E#8, 0xA1#8]) ∨
    (opHigh op = 0xF#4 ∧
      opKk op ∈ [0x07#8, 0x0A#8, 0x15#8, 0x18#8, 0x1E#8, 0x29#8, 0x33#8, 0x55#8, 0x65#8]) := by
  have whole : (opHigh op = 0x0#4 ∧ (op = 0x00E0#16 ∨ op = 0x00EE#16)) ↔ (op = 0x00E0#16 ∨ op = 0x00EE#16) :=
    and_iff_right_of_imp (by rintro (rfl | rfl) <;> decide)
  rw [whole]
  simp +decide [wellFormedWord, opcodeTable, opcodeRowsLow, opcodeRowsAlu, opcodeRowsHigh, opcodeRowsIo,
    OpcodeRow.matches_all, OpcodeRow.matches_high, OpcodeRow.matches_high_byte, OpcodeRow.matches_high_low,
    and_or_left, or_assoc]

theorem wellFormedWord_of_space : ∀ {e : DecodeReject}, e.Space op → wellFormedWord op ≠ true
  | .group0, ⟨h, h1, h2⟩ => by simp [wellFormedWord_iff, h, h1, h2]
  | .group8, ⟨h, hn⟩ => by simpa [wellFormedWord_iff, h] using (alu_unrecognised_iff _).mp hn
  | .groupE, ⟨h, hk⟩ => by simpa [wellFormedWord_iff, h] using hk
  | .groupF, ⟨h, hk⟩ => by simpa [wellFormedWord_iff, h] using hk

theorem exists_space_of_not_wellFormedWord (hw : wellFormedWord op ≠ true) :
    ∃ e : DecodeReject, e.Space op := by
  rw [Ne, wellFormedWord_iff] at hw
  simp only [not_or, not_and] at hw
  obtain ⟨whole, low, alu, high, key, io⟩ := hw
  rcases group_cases (opHigh op) with h | h | h | h | h | h
  · exact ⟨.group0, h, whole h⟩
  · exact absurd h low
  · exact ⟨.group8, h, (alu_unrecognised_iff _).mpr (alu h)⟩
  · exact absurd h high
  · exact ⟨.groupE, h, key h⟩
  · exact ⟨.groupF, h, io h⟩

/-- The decoder and the table accept the same words: both leave out exactly the unrecognised spaces. -/
theorem isOk_decode : (decode op).isOk = wellFormedWord op := by
  cases hd : decode op with
  | error e => exact (Bool.eq_false_iff.mpr (wellFormedWord_of_space (space_of_decode hd))).symm
  | ok i =>
    refine (Decidable.of_not_not fun hw => ?_ : wellFormedWord op = true).symm
    obtain ⟨e, he⟩ := exists_space_of_not_wellFormedWord hw
    cases hd.symm.trans (decode_of_space he)

end

/-- Settles O3, by `isOk_decode`: both sides leave out the unrecognised spaces and nothing else. -/
theorem decoderAcceptsExactlyTableWords : Obligations.DecoderAcceptsExactlyTableWords := fun op => by
  rw [← isOk_decode]
  cases decode op <;> simp [Except.isOk, Except.toBool]

/-- Settles O5: the rows do not overlap (`length_filter_matches`), and some row matches where the word decodes. -/
theorem eachWordMatchesAtMostOneRow : Obligations.EachWordMatchesAtMostOneRow :=
  ⟨rfl, fun op => by rw [length_filter_matches, isOk_decode]⟩

end Sys2Proof

namespace Sys2Proof.Machine

/-! ### The policy for unrecognised opcodes (30_encoding.md R81) -/

section
variable {s : State}

theorem execute_of_reject {op : Word} {e : DecodeReject} (h : decode op = .error e) :
    execute op s = .next (s.unrecognised op) := by
  rw [execute, h]

theorem instrStep_of_reject {e : DecodeReject} (inRange : s.pc.toNat + 2 ≤ memSize)
    (h : decode (s.wordAt s.pc.toNat) = .error e) :
    instrStep s = .next (s.advance.unrecognised (s.wordAt s.pc.toNat)) := by
  rcases instrStep_cases s with ⟨out, -⟩ | ⟨-, _, -, stepped⟩ | ⟨-, _, decoded, -⟩
  · omega
  · exact stepped
  · cases decoded.symm.trans h

theorem unrecognised_ignore (op : Word) (h : s.cfg.unknownOpcodePolicy = .ignore) : s.unrecognised op = s := by
  rcases s.unrecognised_cases op with ⟨-, e⟩ | ⟨h', -⟩
  · exact e
  · cases h.symm.trans h'

theorem unrecognised_fault (op : Word) (h : s.cfg.unknownOpcodePolicy = .fault) :
    s.unrecognised op = s.raise (.unknownOpcode s.instrAddr op) := by
  rcases s.unrecognised_cases op with ⟨h', -⟩ | ⟨-, e⟩
  · cases h.symm.trans h'
  · exact e

/-- After the baseline increment the instruction address is where the opcode was fetched (60_exceptions.md R201). -/
theorem instrAddr_advance : s.advance.instrAddr = s.pc := BitVec.add_sub_cancel s.pc 2#16

end

/-- Settles O9: `execute` and the instruction step both answer `State.unrecognised`, the step after the increment. -/
theorem unrecognisedOpcodePolicy : Obligations.UnrecognisedOpcodePolicy := by
  refine ⟨rfl, fun op e s rejected => ?_, fun e s inRange rejected => ?_⟩
  · rw [execute_of_reject rejected]
    exact ⟨fun h => by rw [unrecognised_ignore op h], fun h => by rw [unrecognised_fault op h]; rfl⟩
  · rw [instrStep_of_reject inRange rejected]
    refine ⟨fun h => ?_, fun h => ?_⟩
    · rw [unrecognised_ignore (s := s.advance) _ h]
      rfl
    · rw [unrecognised_fault (s := s.advance) _ h, instrAddr_advance]
      rfl

end Sys2Proof.Machine

/-! ## The instructions of the Primary Dispatcher (40_primary.md) -/

namespace Sys2Proof

/-- Where every bit is examined, one word alone decodes to an instruction: the groups other than 5 and 9
(30_encoding.md R79). -/
theorem decode_eq_ok_iff_of_examined {op : Word} {i : Instr} (h5 : opHigh (encode i) ≠ 0x5#4)
    (h9 : opHigh (encode i) ≠ 0x9#4) : decode op = .ok i ↔ op = encode i := by
  refine ⟨fun h => ?_, fun h => h ▸ decode_encode i⟩
  have canonical := encode_of_decode h
  by_cases unexamined : opHigh op = 0x5#4 ∨ opHigh op = 0x9#4
  · have sameGroup : opHigh (encode i) = opHigh op := by
      rw [canonical, canonicalWord_of_unexamined rfl unexamined, opHigh_formatXYN]
    rw [sameGroup] at h5 h9
    exact absurd unexamined (not_or.mpr ⟨h5, h9⟩)
  · rw [canonical, canonicalWord, if_neg unexamined]

end Sys2Proof

namespace Sys2Proof.Machine

/-- Settles O32: CLS is a word of group 0, where every bit is examined, and its meaning is one call recorded. -/
theorem clsCallsTheScreenOnce : Obligations.ClsCallsTheScreenOnce :=
  ⟨fun _ => decode_eq_ok_iff_of_examined (i := .cls) (by decide) (by decide), fun _ => ⟨_, rfl, rfl⟩⟩

/-- Settles O33: RET is a word of group 0, where every bit is examined, and pops or faults by whether the call stack
holds an entry. -/
theorem retPopsTheReturnAddress : Obligations.RetPopsTheReturnAddress :=
  ⟨fun _ => decode_eq_ok_iff_of_examined (i := .ret) (by decide) (by decide),
    fun s _ held => ⟨_, exec_ret_held s held, rfl⟩, exec_ret_empty⟩

/-- The entry a CALL pushes is the PC it saw, the return address (41_extended.md R110, R114). -/
theorem exec_call_pushes {s t : State} {nnn : Addr} (hs : s.Inv) (room : s.sp ≠ s.cfg.stackDepth)
    (h : exec (.call nnn) s = .next t) : t.sp = s.sp + 1 ∧ t.stackEntry s.sp = s.pc := by
  cases (exec_call_room s room).symm.trans h
  exact ⟨rfl, Sparse.get_set_self s.pc hs.stack⟩

/-- Settles O36: the RET pops the entry the CALL pushed (`exec_call_pushes`), which the state in between kept. -/
theorem callThenRetRestores : Obligations.CallThenRetRestores := by
  intro s t u nnn hs room called stackKept spKept
  obtain ⟨pushedSp, pushedPc⟩ := exec_call_pushes hs room called
  have entryKept : u.stackEntry s.sp = t.stackEntry s.sp := by rw [State.stackEntry, State.stackEntry, stackKept]
  exact ⟨_, exec_ret_held u (spKept.trans pushedSp), entryKept.trans pushedPc, rfl, rfl⟩

end Sys2Proof.Machine

/-! ## The instructions of the Extended Dispatcher (41_extended.md), and ADD I and LD F (43_io.md R176, R177) -/

namespace Sys2Proof.Machine

/-! ### The words of the instructions (30_encoding.md R73, R79) -/

theorem hasWord_encode (i : Instr) : HasWord (encode i) i := ⟨rfl, decode_encode i⟩

/-- Group 5 does not examine the low nibble (30_encoding.md R79). -/
theorem decode_group5 (x y : RegIdx) (n : Nibble) : decode (formatXYN 0x5#4 x y n) = .ok (.seReg x y) := by
  rw [decode_of_high (by simp)]
  simp [decodeExtended]

/-- Group 9 does not examine the low nibble (30_encoding.md R79). -/
theorem decode_group9 (x y : RegIdx) (n : Nibble) : decode (formatXYN 0x9#4 x y n) = .ok (.sneReg x y) := by
  rw [decode_of_high (by simp)]
  simp [decodeExtended]

/-! ### Calls and jumps (41_extended.md R110, R113, R114, R123) -/

/-- Settles O34: CALL with room pushes (`exec_call_pushes`) and writes no other entry; with a full stack it faults. -/
theorem callPushesTheReturnAddress : Obligations.CallPushesTheReturnAddress := by
  refine fun nnn => ⟨hasWord_encode (.call nnn), fun s hs room => ?_, fun s => exec_call_full s⟩
  have called := exec_call_room s room (nnn := nnn)
  obtain ⟨pushedSp, pushedPc⟩ := exec_call_pushes hs room called
  exact ⟨_, called, rfl, pushedSp, pushedPc, fun _ other => Sparse.get_set_ne s.pc other s.stack, rfl⟩

theorem zextAddr_toNat (nnn : Addr) : (zextAddr nnn).toNat = nnn.toNat :=
  BitVec.toNat_setWidth_of_le (by decide)

/-- The target of JP V0 is an exact sum: an address and a byte fit 16 bits (41_extended.md R123). -/
theorem zextAddr_add_zextByte_toNat (nnn : Addr) (b : Byte) :
    (zextAddr nnn + zextByte b).toNat = nnn.toNat + b.toNat := by
  have := nnn.isLt
  have := b.isLt
  rw [add_zextByte, zextAddr_toNat, BitVec.toNat_ofNat, Nat.mod_eq_of_lt (by omega)]

/-- Settles O35: both jumps write PC alone, and from 0xFFF on the two bytes at PC do not both exist
(`instrStep_outOfRange`). -/
theorem jumpsSetTheProgramCounter : Obligations.JumpsSetTheProgramCounter := by
  refine fun nnn => ⟨hasWord_encode (.jp nnn), hasWord_encode (.jpV0 nnn), fun s =>
    ⟨⟨_, rfl, zextAddr_toNat nnn, rfl, fun top => ?_⟩, ⟨_, rfl, zextAddr_add_zextByte_toNat nnn _, rfl, fun top => ?_⟩⟩⟩
  · subst top
    have past : memSize < (zextAddr 0xFFF#12).toNat + 2 := by decide
    exact instrStep_outOfRange past
  · exact instrStep_outOfRange (Nat.add_le_add_right top 2)

/-! ### Skips (41_extended.md R112, R115-R117, R121, R126, R127) -/

section
variable (s : State) (a b : Byte)

theorem skipIf_not (c : Bool) : s.skipIf (!c) = s.setPc (if c = true then s.pc else s.pc + 2#16) := by
  cases c <;> rfl

theorem skipIf_beq : s.skipIf (a == b) = s.setPc (if a = b then s.pc + 2#16 else s.pc) := by
  simp only [State.skipIf_eq, beq_iff_eq]

theorem skipIf_bne : s.skipIf (a != b) = s.setPc (if a = b then s.pc else s.pc + 2#16) := by
  simp only [bne, skipIf_not, beq_iff_eq]

end

/-- Settles O37, by the skip on an equality and on its negation. -/
theorem immediateSkips : Obligations.ImmediateSkips := fun x kk =>
  ⟨hasWord_encode (.seImm x kk), hasWord_encode (.sneImm x kk), fun s =>
    ⟨⟨_, rfl, skipIf_beq s (s.V x) kk⟩, ⟨_, rfl, skipIf_bne s (s.V x) kk⟩⟩⟩

/-- Settles O38, by the skip on an equality and on its negation; the decoder does not look at the low nibble. -/
theorem registerSkips : Obligations.RegisterSkips := fun x y =>
  ⟨fun n => ⟨decode_group5 x y n, decode_group9 x y n⟩, fun s =>
    ⟨⟨_, rfl, skipIf_beq s (s.V x) (s.V y)⟩, ⟨_, rfl, skipIf_bne s (s.V x) (s.V y)⟩⟩⟩

/-- Settles O39: the query leaves PC alone, and the skip after it is by the answer it drew. -/
theorem keySkipsFollowTheAnswer : Obligations.KeySkipsFollowTheAnswer := fun x =>
  ⟨hasWord_encode (.skp x), hasWord_encode (.sknp x), fun s =>
    ⟨⟨_, rfl, State.skipIf_eq (s.afterKeyDown (s.V x)) _⟩, ⟨_, rfl, skipIf_not (s.afterKeyDown (s.V x)) _⟩⟩⟩

/-! ### Register and index writes (41_extended.md R118, R119, R122, R124, 43_io.md R176, R177) -/

theorem setV_onlyRegs (s : State) (x : RegIdx) (b : Byte) : OnlyRegs (fun j => j = x) s (s.setV x b) :=
  ⟨fun _ other => State.setV_V_ne s b other, rfl⟩

/-- Settles O40: each is one register write, of the immediate or of the 8-bit sum. -/
theorem immediateLoadAndAdd : Obligations.ImmediateLoadAndAdd := by
  refine fun x kk => ⟨hasWord_encode (.ldImm x kk), hasWord_encode (.addImm x kk), fun s =>
    ⟨⟨_, rfl, State.setV_V_self s x kk, setV_onlyRegs s x kk⟩, ⟨_, rfl, ?_, setV_onlyRegs s x _⟩⟩⟩
  rw [State.setV_V_self]
  exact BitVec.toNat_add (s.V x) kk

theorem glyphAddr_toNat (b : Byte) : (glyphAddr b).toNat = b.toNat * 5 := by
  have := b.isLt
  rw [glyphAddr_eq, BitVec.toNat_ofNat, Nat.mod_eq_of_lt (by omega)]

theorem add_zextByte_toNat (w : Word) (b : Byte) : (w + zextByte b).toNat = (w.toNat + b.toNat) % 65536 := by
  rw [add_zextByte, BitVec.toNat_ofNat]

/-- Settles O41: each writes I alone; the address and the glyph address fit 16 bits, the sum is taken mod 65536. -/
theorem indexRegisterLoads : Obligations.IndexRegisterLoads :=
  ⟨fun nnn => ⟨hasWord_encode (.ldI nnn), fun _ => ⟨_, rfl, zextAddr_toNat nnn, rfl⟩⟩,
    fun x => ⟨hasWord_encode (.addI x), hasWord_encode (.ldF x), fun s =>
      ⟨⟨_, rfl, add_zextByte_toNat s.i (s.V x), rfl⟩, ⟨_, rfl, glyphAddr_toNat (s.V x), rfl⟩⟩⟩⟩

/-- Settles O42: the call leaves the registers alone, and the one write after it goes to V[x]. -/
theorem rndMasksTheRandomByte : Obligations.RndMasksTheRandomByte := fun x kk =>
  ⟨hasWord_encode (.rnd x kk), fun s =>
    ⟨_, rfl, State.setV_V_self s.afterRandom x _, fun _ other => State.setV_V_ne s.afterRandom _ other, rfl⟩⟩

/-! ### Draws (41_extended.md R125) -/

/-- A draw changes the registers, the record of calls by the one call, and the model's own fields. -/
theorem drawSprite_eq (s : State) (x y : RegIdx) (n : Nibble) :
    s.drawSprite x y n = { s with
      v := (s.drawSprite x y n).v, drawn := s.drawn + 1,
      inputs := { s.inputs with collision := s.inputs.collision.tail },
      calls := .screenDraw (s.V x) (s.V y)
        ((List.range n.toNat).map fun k => s.readByte (s.i.toNat + k)) n.toNat :: s.calls } := by
  rw [← State.readBytes_eq_map]
  rfl

/-- Settles O43: in range DRW is the draw, whose one register write is VF; out of range it is the fault. -/
theorem drwDrawsAndReportsCollision : Obligations.DrwDrawsAndReportsCollision := by
  refine fun x y n => ⟨hasWord_encode (.drw x y n), fun s inRange => ?_, fun s nonempty out => ?_⟩
  · have drawn : exec (.drw x y n) s = .next (s.drawSprite x y n) := congrArg _ (s.withRange_in inRange)
    refine ⟨_, drawn, ?_, fun j other => ?_, drawSprite_eq s x y n⟩
    · exact (s.drawSprite_V x y n regF).trans (if_pos rfl)
    · exact (s.drawSprite_V x y n j).trans (if_neg other)
  · exact congrArg _ (s.withRange_out ⟨nonempty, out⟩)

end Sys2Proof.Machine

/-! ## The ALU group (42_alu.md) -/

namespace Sys2Proof.Machine

/-! ### The two alias modes (42_alu.md R150) -/

section
variable (s : State) (flag result : Byte → Byte → Byte) {x y : RegIdx}

/-- Where neither operand is VF, writing VF first changes no operand, so both modes read the operands as they were. -/
theorem aluFlagged_of_ne_regF (hx : x ≠ regF) (hy : y ≠ regF) : s.aluFlagged flag result x y =
    (s.setV regF (flag (s.V x) (s.V y))).setV x (result (s.V x) (s.V y)) := by
  unfold State.aluFlagged
  cases s.cfg.aluAliasMode with
  | latched => rfl
  | sequential => simp only [State.setV_V_ne s _ hx, State.setV_V_ne s _ hy]

/-- Where neither operand is VF, a flag-writing operation run in another alias mode differs by the mode alone. -/
theorem aluFlagged_withAliasMode (hx : x ≠ regF) (hy : y ≠ regF) (mode : AliasMode) :
    ({ s with cfg := { s.cfg with aluAliasMode := mode } } : State).aluFlagged flag result x y =
      { s.aluFlagged flag result x y with cfg := { s.cfg with aluAliasMode := mode } } := by
  rw [aluFlagged_of_ne_regF _ flag result hx hy, aluFlagged_of_ne_regF s flag result hx hy]
  rfl

end

theorem exec_eq_aluFlagged {i : Instr} {x y : RegIdx}
    (h : i ∈ [.addReg x y, .subReg x y, .shr x y, .subn x y, .shl x y]) :
    ∃ flag result, ∀ s : State, exec i s = .next (s.aluFlagged flag result x y) := by
  simp only [List.mem_cons, List.not_mem_nil, or_false] at h
  obtain rfl | rfl | rfl | rfl | rfl := h
  · exact ⟨addFlag, addResult, fun _ => rfl⟩
  · exact ⟨subFlag, subResult, fun _ => rfl⟩
  · exact ⟨shrFlag, shrResult, fun _ => rfl⟩
  · exact ⟨subnFlag, subnResult, fun _ => rfl⟩
  · exact ⟨shlFlag, shlResult, fun _ => rfl⟩

/-- Settles O48: either mode ends in the state that `s` itself ends in, but for the mode (`aluFlagged_withAliasMode`). -/
theorem aliasModesAgreeWithoutVf : Obligations.AliasModesAgreeWithoutVf := by
  intro i x y s hi hx hy
  obtain ⟨flag, result, run⟩ := exec_eq_aluFlagged hi
  have ends (mode : AliasMode) := (run _).trans (congrArg _ (aluFlagged_withAliasMode s flag result hx hy mode))
  exact ⟨_, ends .latched, ends .sequential⟩

/-! ### Copy and logic (42_alu.md R151-R154) -/

/-- Settles O44: each is one register write, to V[x]. -/
theorem copyAndLogic : Obligations.CopyAndLogic := by
  have writes (s : State) (x : RegIdx) (b : Byte) :
      ∃ t, (.next (s.setV x b) : Result) = .next t ∧ t.V x = b ∧ OnlyRegs (fun j => j = x) s t :=
    ⟨_, rfl, State.setV_V_self s x b, setV_onlyRegs s x b⟩
  exact fun x y => ⟨hasWord_encode (.ldReg x y), hasWord_encode (.orReg x y), hasWord_encode (.andReg x y),
    hasWord_encode (.xorReg x y), fun s => ⟨writes s x _, writes s x _, writes s x _, writes s x _⟩⟩

/-! ### Flags and results as numbers (42_alu.md R155-R159) -/

section
variable (a b : Byte)

theorem bool01_decide (p : Prop) [Decidable p] : bool01 (decide p) = if p then 1#8 else 0#8 := by
  simp only [bool01, decide_eq_true_eq]

theorem shrFlag_eq : shrFlag a b = if a.toNat % 2 = 1 then 1#8 else 0#8 := by
  apply BitVec.eq_of_toNat_eq
  rw [shrFlag_toNat]
  split
  · assumption
  · exact Nat.mod_two_ne_one.mp ‹_›

theorem shrResult_eq : shrResult a b = BitVec.ofNat 8 (a.toNat / 2) := by
  rw [← shrResult_toNat a b, BitVec.ofNat_toNat, BitVec.setWidth_eq]

theorem shlResult_eq : shlResult a b = BitVec.ofNat 8 (a.toNat * 2) := by
  apply BitVec.eq_of_toNat_eq
  rw [shlResult_toNat, BitVec.toNat_ofNat]

end

/-! ### Flag-writing operations (42_alu.md R155-R159) -/

/-- The effect of a flag-writing operation, with its flag and result function in any equal form. -/
theorem aluFlagged_effect {s : State} {x y : RegIdx} {vf : Byte} {flag result out : Byte → Byte → Byte}
    (hflag : flag (s.V x) (s.V y) = vf) (hout : ∀ a b, result a b = out a b) :
    AluEffect s (s.aluFlagged flag result x y) x y vf out := by
  subst hflag
  refine ⟨?_, fun hx => ?_, fun j other => ?_, s.aluFlagged_eq flag result x y⟩
  · rw [State.aluFlagged_V, if_pos rfl, hout]
  · rw [State.aluFlagged_V, if_neg hx.symm, if_pos rfl]
  · obtain ⟨hx, hF⟩ := not_or.mp other
    rw [State.aluFlagged_V, if_neg hx, if_neg hF]

/-- Settles O45, by the flag and the sum as numbers. -/
theorem addRegisterWithCarry : Obligations.AddRegisterWithCarry := fun x y =>
  ⟨hasWord_encode (.addReg x y), fun _ => ⟨_, rfl, aluFlagged_effect (bool01_decide _) addResult_eq⟩⟩

/-- Settles O46, by the flag and the difference as numbers; SUBN is SUB with its operands exchanged. -/
theorem subtractWithStrictFlag : Obligations.SubtractWithStrictFlag := fun x y =>
  ⟨hasWord_encode (.subReg x y), hasWord_encode (.subn x y), fun _ =>
    ⟨⟨_, rfl, aluFlagged_effect (bool01_decide _) subResult_eq⟩,
      ⟨_, rfl, aluFlagged_effect (bool01_decide _) fun a b => subResult_eq b a⟩⟩⟩

/-- Settles O47, by the flag and the result of each shift as numbers. -/
theorem shiftsByOne : Obligations.ShiftsByOne := fun x y =>
  ⟨hasWord_encode (.shr x y), hasWord_encode (.shl x y), fun s =>
    ⟨⟨_, rfl, aluFlagged_effect (shrFlag_eq (s.V x) (s.V y)) shrResult_eq⟩,
      ⟨_, rfl, aluFlagged_effect (shlFlag_eq (s.V x) (s.V y)) shlResult_eq⟩⟩⟩

end Sys2Proof.Machine

/-! ## The I/O group (43_io.md) -/

namespace Sys2Proof.Machine

/-! ### The timers and the wait for a key (43_io.md R171-R175) -/

/-- Settles O49: LD Vx, DT is one register write, and the other two write one timer. -/
theorem timerMoves : Obligations.TimerMoves := fun x =>
  ⟨hasWord_encode (.ldVxDt x), hasWord_encode (.ldDtVx x), hasWord_encode (.ldStVx x), fun s =>
    ⟨⟨_, rfl, State.setV_V_self s x s.dt, setV_onlyRegs s x s.dt⟩, ⟨_, rfl, rfl⟩, ⟨_, rfl, rfl⟩⟩⟩

/-- Settles O50: the one write is that of RUN. -/
theorem keyWaitEntry : Obligations.KeyWaitEntry := fun x => ⟨hasWord_encode (.ldVxK x), fun _ => ⟨_, rfl, rfl⟩⟩

/-- Taking an event records the two calls and draws one answer (log 4, log 5). -/
theorem afterKeyEvent_eq (s : State) (raw : Nat) : s.afterKeyEvent raw = { s with
    calls := .keyMap raw :: .hostNextKeyDown :: s.calls, drawn := s.drawn + 1,
    inputs := { s.inputs with keyEvents := s.inputs.keyEvents.tail } } := rfl

section
variable {s : State} {raw : Nat} (x : RegIdx)

theorem keyEvent_of_noEvent (h : s.keyEventAnswer = none) : s.keyEvent x = s.afterKeyPoll := by
  rw [State.keyEvent, h]

theorem keyEvent_of_unmapped (h : s.keyEventAnswer = some raw) (unmapped : Config.mapKey s.cfg raw = none) :
    s.keyEvent x = s.afterKeyEvent raw := by
  simp only [State.keyEvent, h, unmapped]

theorem keyEvent_of_mapped {k : KeyIdx} (h : s.keyEventAnswer = some raw) (mapped : Config.mapKey s.cfg raw = some k) :
    s.keyEvent x = ((s.afterKeyEvent raw).setV x (k.setWidth 8)).setRun .running := by
  simp only [State.keyEvent, h, mapped]

end

/-- Settles O11: the step is the key event after the turn, in its three cases by what the event is and maps to; taking
the turn changes neither the parameters, the registers nor the record of calls. -/
theorem keyEventResolvesOrWaits : Obligations.KeyEventResolvesOrWaits := by
  intro s x awaiting loaded coreTurn
  refine ⟨_, step_awaiting s awaiting loaded coreTurn, fun noEvent => ?_, fun raw event unmapped => ?_,
    fun raw k event mapped => ?_⟩
  · rw [keyEvent_of_noEvent x noEvent]
    rfl
  · rw [← s.afterTurn_cfg] at unmapped
    rw [keyEvent_of_unmapped x event unmapped, afterKeyEvent_eq, State.afterTurn_calls]
  · rw [← s.afterTurn_cfg] at mapped
    rw [keyEvent_of_mapped x event mapped]
    refine ⟨rfl, ?_, fun j other => ?_, ?_⟩
    · rw [State.setRun_V, State.setV_V_self]
      exact BitVec.toNat_setWidth_of_le (by decide)
    · rw [State.setRun_V, State.setV_V_ne _ _ other, State.afterKeyEvent_V, State.afterTurn_V]
    · rw [afterKeyEvent_eq, State.afterTurn_calls, State.setRun_v]
      rfl

/-! ### Stores and loads through I (43_io.md R178-R180) -/

section
variable {s : State} {x : RegIdx}

theorem writeBytes_onlyBytes (base : Nat) (bs : List Byte) : OnlyBytes base bs.length s (s.writeBytes base bs) :=
  ⟨fun _ outside => State.readByte_writeBytes_outside outside, State.writeBytes_eq base bs⟩

/-- The j-th byte of a block of registers from V0 upward is register j. -/
theorem regsFrom_zero_getElem {len : Nat} {j : RegIdx} (h : j.toNat < len) :
    (s.regsFrom 0 len)[j.toNat]'(by simpa using h) = s.V j := by
  rw [State.regsFrom_getElem s h, Nat.zero_add, BitVec.ofNat_toNat, BitVec.setWidth_eq]

/-- Loading from V0 upward puts the j-th byte into register j. -/
theorem loadRegsFrom_zero_V {bs : List Byte} {j : RegIdx} (fits : bs.length ≤ 16) (h : j.toNat < bs.length) :
    (s.loadRegsFrom 0 bs).V j = bs[j.toNat] := by
  have loaded := s.loadRegsFrom_inside (k := 0) (by omega) h
  rwa [Nat.zero_add, BitVec.ofNat_toNat, BitVec.setWidth_eq] at loaded

theorem bcdDigits_toNat (b : Byte) :
    (bcdDigits b).map BitVec.toNat = [b.toNat / 100, b.toNat / 10 % 10, b.toNat % 10] := by
  simp [bcdDigits]

/-- LD [I], Vx in range: registers 0 to x go to the bytes from I upward. -/
theorem exec_ldIVx_stores (hs : s.Inv) (inRange : s.i.toNat + x.toNat < 0x1000) :
    ∃ t, exec (.ldIVx x) s = .next t ∧ (∀ j : RegIdx, j.toNat ≤ x.toNat → t.readByte (s.i.toNat + j.toNat) = s.V j) ∧
      OnlyBytes s.i.toNat (x.toNat + 1) s t := by
  have stored : exec (.ldIVx x) s = .next (s.writeBytes s.i.toNat (s.regsFrom 0 (blockLen x))) :=
    congrArg _ (s.withRange_in (.inr inRange))
  have len := s.regsFrom_length 0 (blockLen x)
  refine ⟨_, stored, fun j hj => ?_, ?_⟩
  · have listed : j.toNat < blockLen x := Nat.lt_succ_of_le hj
    rw [State.readByte_writeBytes_inside hs.mem (by rwa [len]) (by rwa [len]), regsFrom_zero_getElem listed]
  · have frame := writeBytes_onlyBytes (s := s) s.i.toNat (s.regsFrom 0 (blockLen x))
    rwa [len] at frame

/-- LD Vx, [I] in range: the bytes from I upward go to registers 0 to x. -/
theorem exec_ldVxI_loads (inRange : s.i.toNat + x.toNat < 0x1000) :
    ∃ t, exec (.ldVxI x) s = .next t ∧ (∀ j : RegIdx, j.toNat ≤ x.toNat → t.V j = s.readByte (s.i.toNat + j.toNat)) ∧
      OnlyRegs (fun j => j.toNat ≤ x.toNat) s t := by
  have loaded : exec (.ldVxI x) s = .next (s.loadRegsFrom 0 (s.readBytes s.i.toNat (blockLen x))) :=
    congrArg _ (s.withRange_in (.inr inRange))
  have len := s.readBytes_length s.i.toNat (blockLen x)
  have fits := x.isLt
  refine ⟨_, loaded, fun j hj => ?_, fun j hj => ?_, s.loadRegsFrom_eq _ _⟩
  · have listed : j.toNat < blockLen x := Nat.lt_succ_of_le hj
    rw [loadRegsFrom_zero_V (by rwa [len]) (by rwa [len]), State.readBytes_getElem listed]
  · have outside : blockLen x ≤ j.toNat := Nat.lt_of_not_le hj
    exact s.loadRegsFrom_outside (by rwa [len, Nat.zero_add]) (.inr (by rwa [len, Nat.zero_add]))

end

/-- Settles O51: in range the three bytes read back are the digits, as numbers by `bcdDigits_toNat`; out of range it is
the fault. -/
theorem bcdStore : Obligations.BcdStore := by
  refine fun x => ⟨hasWord_encode (.ldB x), fun s hs inRange => ?_, fun s out => ?_⟩
  · have stored : exec (.ldB x) s = .next (s.writeBytes s.i.toNat (bcdDigits (s.V x))) :=
      congrArg _ (s.withRange_in (.inr inRange))
    have readBack := State.readBytes_writeBytes (bs := bcdDigits (s.V x)) hs.mem inRange
    have digits := (congrArg (List.map BitVec.toNat) readBack).trans (bcdDigits_toNat (s.V x))
    obtain ⟨hundreds, rest⟩ := List.cons.inj digits
    obtain ⟨tens, rest⟩ := List.cons.inj rest
    obtain ⟨units, -⟩ := List.cons.inj rest
    exact ⟨_, stored, hundreds, tens, units, writeBytes_onlyBytes _ (bcdDigits (s.V x))⟩
  · exact congrArg _ (s.withRange_out ⟨by decide, Nat.lt_succ_of_le out⟩)

/-- Settles O52: in range by `exec_ldIVx_stores`, out of range it is the fault. -/
theorem blockStore : Obligations.BlockStore := fun x =>
  ⟨hasWord_encode (.ldIVx x), fun _ => exec_ldIVx_stores, fun s out =>
    congrArg _ (s.withRange_out ⟨Nat.succ_ne_zero _, Nat.lt_succ_of_le out⟩)⟩

/-- Settles O53: in range by `exec_ldVxI_loads`, out of range it is the fault. -/
theorem blockLoad : Obligations.BlockLoad := fun x =>
  ⟨hasWord_encode (.ldVxI x), fun _ => exec_ldVxI_loads, fun s out =>
    congrArg _ (s.withRange_out ⟨Nat.succ_ne_zero _, Nat.lt_succ_of_le out⟩)⟩

/-- Settles O54: the load reads at the same I the bytes that the store left there. -/
theorem blockStoreThenLoadRestores : Obligations.BlockStoreThenLoadRestores := by
  intro s t u x hs inRange stored cfgKept memKept iKept
  obtain ⟨t', stored', bytes, -, frame⟩ := exec_ldIVx_stores hs inRange
  obtain rfl := Host.Outcome.next.inj (stored.symm.trans stored')
  have iSame : u.i = s.i := by rw [iKept, frame]
  obtain ⟨w, loaded, regs, -, frame'⟩ := exec_ldVxI_loads (s := u) (x := x) (by rwa [iSame])
  refine ⟨w, loaded, fun j hj => ?_, ?_⟩
  · rw [regs j hj, readByte_congr cfgKept memKept, iSame, bytes j hj]
  · rw [frame', iSame]

end Sys2Proof.Machine

/-! ## Faults, collaborator calls and the timer agent (60_exceptions.md) -/

namespace Sys2Proof.Machine

/-! ### What an instruction can raise (60_exceptions.md R201) -/

/-- The faults an instruction can raise from `s`, each with its condition, where the record names `a` as the address of
the instruction and `op` as its opcode. -/
inductive ExecRaises (s : State) (a op : Word) : Instr → Fault → Prop where
  | callFull (nnn : Addr) (full : s.sp = s.cfg.stackDepth) : ExecRaises s a op (.call nnn) (.stackOverflow a op s.sp)
  | retEmpty (empty : s.sp = 0) : ExecRaises s a op .ret (.stackUnderflow a op)
  | accessOut (i : Instr) (accesses : i.accessLen ≠ 0) (out : memSize < s.i.toNat + i.accessLen) :
      ExecRaises s a op i (.memRange (max s.i.toNat memSize) a (some op))

/-- The faults an instruction step can raise from `s`, each with its condition: of the fetch, of the policy for
unrecognised opcodes, and of the instruction decoded, run after the baseline increment. -/
inductive StepRaises (s : State) : Fault → Prop where
  | fetchOut (out : memSize < s.pc.toNat + 2) : StepRaises s (.memRange (max s.pc.toNat memSize) s.pc none)
  | unrecognised {e : DecodeReject} (rejected : decode (s.wordAt s.pc.toNat) = .error e)
      (policy : s.cfg.unknownOpcodePolicy = .fault) : StepRaises s (.unknownOpcode s.pc (s.wordAt s.pc.toNat))
  | executed {i : Instr} {f : Fault} (decoded : decode (s.wordAt s.pc.toNat) = .ok i)
      (raised : ExecRaises s.advance s.pc (s.wordAt s.pc.toNat) i f) : StepRaises s f

section
variable {s t : State}

/-- An access of memory ends as its effect in range does, or raises `MEM_RANGE` and does nothing else. -/
theorem withRange_notFaulted_or_raises {k : State} (i : Instr) (h : k.NotFaulted) :
    (s.withRange i s.baseAddr i.accessLen k).NotFaulted ∨
      ∃ f, ExecRaises s s.instrAddr (encode i) i f ∧ s.withRange i s.baseAddr i.accessLen k = s.raise f := by
  rcases s.withRange_cases i s.baseAddr i.accessLen k with ⟨-, e⟩ | ⟨⟨accesses, out⟩, e⟩
  · exact .inl (by rwa [e])
  · exact .inr ⟨_, .accessOut i accesses out, e⟩

/-- An instruction ends without a fault, or raises one of its faults and does nothing else. -/
theorem exec_notFaulted_or_raises {i : Instr} (hr : s.run = .running) (h : exec i s = .next t) :
    t.NotFaulted ∨ ∃ f, ExecRaises s s.instrAddr (encode i) i f ∧ t = s.raise f := by
  cases i with
  | call nnn =>
    rcases exec_call_cases s nnn with ⟨full, e⟩ | ⟨-, e⟩ <;> cases e.symm.trans h
    · exact .inr ⟨_, .callFull nnn full, rfl⟩
    · exact .inl (notFaulted_of_running hr)
  | ret =>
    rcases exec_ret_cases s with ⟨empty, e⟩ | ⟨_, -, e⟩ <;> cases e.symm.trans h
    · exact .inr ⟨_, .retEmpty empty, rfl⟩
    · exact .inl (notFaulted_of_running hr)
  | drw =>
    cases h
    exact withRange_notFaulted_or_raises _ (notFaulted_of_running hr)
  | ldB | ldIVx =>
    cases h
    exact withRange_notFaulted_or_raises _ (notFaulted_of_running (by rwa [State.writeBytes_eq]))
  | ldVxI =>
    cases h
    exact withRange_notFaulted_or_raises _ (notFaulted_of_running (by rwa [State.loadRegsFrom_eq]))
  | seImm | sneImm | seReg | sneReg | skp | sknp =>
    cases h
    exact .inl (notFaulted_of_running (by rwa [State.skipIf_eq]))
  | addReg | subReg | shr | subn | shl =>
    cases h
    exact .inl (notFaulted_of_running (by rwa [State.aluFlagged_eq]))
  | ldVxK => cases h; exact .inl nofun
  | _ => cases h; exact .inl (notFaulted_of_running hr)

/-- No instruction of groups 5 and 9 raises a fault, so the opcode of one that does is the word it was decoded from. -/
theorem ExecRaises.encode_eq {a op w : Word} {i : Instr} {f : Fault} (h : ExecRaises s a op i f)
    (decoded : decode w = .ok i) : encode i = w := by
  have examined : opHigh (encode i) ≠ 0x5#4 ∧ opHigh (encode i) ≠ 0x9#4 := by
    cases h with
    | callFull => simp [encode]
    | retEmpty => decide
    | accessOut _ accesses =>
      cases i with
      | drw | ldB | ldIVx | ldVxI => simp [encode]
      | _ => exact absurd rfl accesses
  exact ((decode_eq_ok_iff_of_examined examined.1 examined.2).mp decoded).symm

/-! ### Faults of the instruction step (60_exceptions.md R201, R203) -/

/-- An instruction step that ends in a fault raised it, in the state after the fetch where the fetch was in range and in
the state before where it was not. -/
theorem instrStep_faulted {f : Fault} (hr : s.run = .running) (stepped : instrStep s = .next t)
    (faulted : t.run = .faulted f) :
    StepRaises s f ∧ t = (if s.pc.toNat + 2 ≤ memSize then s.advance else s).raise f := by
  rcases instrStep_cases s with ⟨out, e⟩ | ⟨inRange, _, rejected, e⟩ | ⟨inRange, i, decoded, e⟩
  · cases e.symm.trans stepped
    obtain rfl := Run.faulted.inj faulted
    exact ⟨.fetchOut out, by rw [if_neg (Nat.not_le_of_lt out)]⟩
  · cases e.symm.trans stepped
    rw [if_pos inRange]
    rcases s.advance.unrecognised_cases (s.wordAt s.pc.toNat) with ⟨-, e⟩ | ⟨policy, e⟩ <;> rw [e] at faulted ⊢
    · cases hr.symm.trans faulted
    · obtain rfl := Run.faulted.inj faulted
      rw [instrAddr_advance]
      exact ⟨.unrecognised rejected policy, rfl⟩
  · rw [if_pos inRange]
    rcases exec_notFaulted_or_raises (s := s.advance) hr (e.symm.trans stepped) with ok | ⟨f', raised, rfl⟩
    · exact absurd faulted (ok f)
    · obtain rfl := Run.faulted.inj faulted
      rw [raised.encode_eq decoded, instrAddr_advance] at raised
      exact ⟨.executed decoded raised, rfl⟩

end

/-- Settles O22, by `instrStep_faulted`: raising a fault changes RUN alone. -/
theorem faultsArePrecise : Obligations.FaultsArePrecise := by
  intro s t f hr stepped faulted
  obtain ⟨-, raised⟩ := instrStep_faulted hr stepped faulted
  refine ⟨fun inRange => ?_, fun out => ?_⟩
  · rw [raised, if_pos inRange]
    rfl
  · rw [raised, if_neg (Nat.not_le_of_lt out)]
    rfl

/-- Settles O23: the fault is one that the step can raise (`instrStep_faulted`), and each record has one way to be
raised. -/
theorem faultRecordsSayWhatHappened : Obligations.FaultRecordsSayWhatHappened := by
  intro s t hr stepped
  have raises {f : Fault} (faulted : t.run = .faulted f) : StepRaises s f := (instrStep_faulted hr stepped faulted).1
  refine ⟨fun a op d faulted => ?overflow, fun a op faulted => ?underflow, fun b a faulted => ?fetch,
    fun b a op faulted => ?access, fun a op faulted => ?unknown, fun n faulted => ?load⟩
  case overflow =>
    cases raises faulted with | executed decoded raised =>
    cases raised with | callFull nnn full =>
    exact ⟨rfl, rfl, rfl, full, nnn, decoded⟩
  case underflow =>
    cases raises faulted with | executed decoded raised =>
    cases raised with | retEmpty empty =>
    exact ⟨rfl, rfl, empty, decoded⟩
  case fetch =>
    cases raises faulted with
    | fetchOut out => exact ⟨rfl, out, rfl⟩
    | executed _ raised => cases raised
  case access =>
    cases raises faulted with | executed decoded raised =>
    cases raised with | accessOut _ accesses out =>
    exact ⟨rfl, rfl, _, decoded, accesses, out, rfl⟩
  case unknown =>
    cases raises faulted with
    | unrecognised rejected policy => exact ⟨rfl, rfl, policy, _, rejected⟩
    | executed _ raised => cases raised
  case load =>
    cases raises faulted with | executed _ raised =>
    cases raised

/-! ### Collaborator calls (60_exceptions.md R211) -/

/-- A fault makes no call, so an access of memory alone makes none. -/
theorem withRange_calls {s k : State} (i : Instr) (base len : Nat) (h : k.calls = s.calls) :
    (s.withRange i base len k).calls = s.calls := by
  rcases s.withRange_cases i base len k with ⟨-, e⟩ | ⟨-, e⟩ <;> rw [e]
  · exact h
  · rfl

/-- Settles O30: the five callers record their one call, DRW only where the sprite is in range; every other operation
leaves the record alone. -/
theorem collaboratorCallsByInstruction : Obligations.CollaboratorCallsByInstruction := by
  intro i s t h
  cases i with
  | cls | rnd => cases h; rfl
  | skp | sknp => cases h; rw [State.skipIf_eq]; rfl
  | drw x y n =>
    rcases exec_drw_cases s x y n with ⟨inRange, e⟩ | ⟨-, e⟩ <;> cases e.symm.trans h
    · have bytes (k : Nat) (hk : k < (s.readBytes s.i.toNat n.toNat).length) :
          (s.readBytes s.i.toNat n.toNat)[k] = s.readByte (s.i.toNat + k) :=
        State.readBytes_getElem (by rwa [State.readBytes_length] at hk)
      exact .inl ⟨inRange, _, s.readBytes_length _ _, bytes, rfl⟩
    · exact .inr ⟨⟨_, rfl⟩, rfl⟩
  | call nnn => rcases exec_call_cases s nnn with ⟨-, e⟩ | ⟨-, e⟩ <;> cases e.symm.trans h <;> rfl
  | ret => rcases exec_ret_cases s with ⟨-, e⟩ | ⟨_, -, e⟩ <;> cases e.symm.trans h <;> rfl
  | seImm | sneImm | seReg | sneReg => cases h; rw [State.skipIf_eq]; rfl
  | addReg | subReg | shr | subn | shl => cases h; rw [State.aluFlagged_eq]
  | ldB | ldIVx => cases h; exact withRange_calls _ _ _ (by rw [State.writeBytes_eq])
  | ldVxI => cases h; exact withRange_calls _ _ _ (by rw [State.loadRegsFrom_eq])
  | _ => cases h; rfl

/-! ### Ticks (60_exceptions.md R205, R209) -/

theorem tickByte_toNat (b : Byte) : (tickByte b).toNat = if 0 < b.toNat then b.toNat - 1 else 0 := by
  by_cases h : b = 0#8
  · subst h
    rfl
  · have positive : 0 < b.toNat := Nat.pos_of_ne_zero fun zero => h (BitVec.eq_of_toNat_eq zero)
    rw [tickByte, if_neg h, if_pos positive, BitVec.toNat_sub_of_le positive]
    rfl

section
variable {s : State}

theorem tickEnabled_faulted {f : Fault} (h : s.run = .faulted f) : s.tickEnabled = false := by
  rw [State.tickEnabled, h]

theorem tickEnabled_awaiting {x : RegIdx} (h : s.run = .awaitingKey x) :
    s.tickEnabled = s.cfg.tickDuringKeyWait := by
  rw [State.tickEnabled, h]

theorem tickEnabled_iff : s.tickEnabled = true ↔
    s.run = .running ∨ (∃ x, s.run = .awaitingKey x) ∧ s.cfg.tickDuringKeyWait = true := by
  cases h : s.run with
  | running => simp [State.tickEnabled, h]
  | awaitingKey x => simp [tickEnabled_awaiting h]
  | faulted f => simp [tickEnabled_faulted h]

theorem notFaulted_of_tickEnabled (h : s.tickEnabled = true) : s.NotFaulted := fun _ faulted =>
  Bool.noConfusion ((tickEnabled_faulted faulted).symm.trans h)

/-- The timer moves only where a tick is enabled (60_exceptions.md R205). -/
theorem tickEnabled_of_timerTurn (h : s.nextTurn = .timer) : s.tickEnabled = true := by
  by_contra disabled
  rw [State.nextTurn, if_neg disabled] at h
  cases h

theorem step_timerTurn (loaded : s.boot = .loaded) (timerTurn : s.nextTurn = .timer) :
    step s = .next s.afterTurn.tick :=
  step_timer s (notFaulted_of_tickEnabled (tickEnabled_of_timerTurn timerTurn)) loaded timerTurn

end

/-- Settles O10: the step and the choice of the agent both look at RUN first. -/
theorem faultedCoreTakesNoStep : Obligations.FaultedCoreTakesNoStep := fun s _ faulted =>
  ⟨step_faulted s faulted, tickEnabled_faulted faulted⟩

/-- Settles O12, by what a tick makes of one timer (`tickByte_toNat`). -/
theorem tickDecrementsNonzeroTimers : Obligations.TickDecrementsNonzeroTimers := fun s =>
  ⟨tickByte_toNat s.dt, tickByte_toNat s.st, rfl, tickEnabled_iff⟩

/-- Settles O13: taking the turn leaves the timers for the tick as they were. -/
theorem timerTurnTicks : Obligations.TimerTurnTicks := by
  intro s loaded timerTurn
  refine ⟨tickEnabled_of_timerTurn timerTurn, ?_⟩
  rw [step_timerTurn loaded timerTurn, State.tick, State.afterTurn_dt, State.afterTurn_st]
  rfl

/-! ### The wait for a key (60_exceptions.md R214) -/

/-- Taking a turn changes the model's own fields alone (log 3). -/
theorem exists_afterTurn (s : State) : ∃ inputs drawn, s.afterTurn = { s with inputs := inputs, drawn := drawn } := by
  rw [State.afterTurn]
  split
  · exact ⟨_, _, rfl⟩
  · exact ⟨_, _, rfl⟩

/-- Settles O14: the step is a tick, which the parameter must allow, or a key event in one of its three cases. -/
theorem keyWaitPreservesState : Obligations.KeyWaitPreservesState := by
  intro s t x awaiting loaded stepped
  obtain ⟨inputs, drawn, turn⟩ := exists_afterTurn s
  cases turnOf : s.nextTurn with
  | timer =>
    have allowed : s.cfg.tickDuringKeyWait = true :=
      (tickEnabled_awaiting awaiting).symm.trans (tickEnabled_of_timerTurn turnOf)
    rw [step_timerTurn loaded turnOf, turn] at stepped
    cases stepped
    exact ⟨.inl ⟨awaiting, rfl⟩, fun forbidden => Bool.noConfusion (forbidden.symm.trans allowed), rfl⟩
  | core =>
    rw [step_awaiting s awaiting loaded turnOf, turn] at stepped
    obtain rfl := Host.Outcome.next.inj stepped
    rcases State.keyEvent_cases { s with inputs := inputs, drawn := drawn } x with
      ⟨-, e⟩ | ⟨_, -, -, e⟩ | ⟨raw, k, -, mapped, e⟩ <;> rw [e]
    · exact ⟨.inl ⟨awaiting, rfl⟩, fun _ => ⟨rfl, rfl⟩, rfl⟩
    · exact ⟨.inl ⟨awaiting, rfl⟩, fun _ => ⟨rfl, rfl⟩, rfl⟩
    · refine ⟨.inr ⟨rfl, ⟨raw, k, mapped, ?_⟩, fun j other => ?_⟩, fun _ => ⟨rfl, rfl⟩, rfl⟩
      · exact State.setV_V_self _ x _
      · exact State.setV_V_ne _ _ other

end Sys2Proof.Machine

/-! ## Reset, load and the normal end of a run (70_reset_and_hazards.md) -/

namespace Sys2Proof.Machine

/-! ### Load (70_reset_and_hazards.md R232, R233) -/

section
variable {s : State} {image : List Byte}

/-- The bound of R232, by the size of the image alone. -/
theorem image_fits_iff (image : List Byte) : image.length + progBase < memSize ↔ image.length ≤ 3583 := by
  simp only [progBase, memSize]
  omega

/-- Of an image that fits, `load` writes memory, PC and the boot state, and nothing else. -/
theorem load_frame (fits : image.length ≤ 3583) : s.load image =
    { s with mem := (s.writeBytes progBase image).mem, pc := 0x200#16, boot := .loaded } := by
  rw [State.load_fits s ((image_fits_iff image).2 fits), State.writeBytes_eq]
  rfl

theorem readByte_load_eq_writeBytes (fits : image.length ≤ 3583) (a : Nat) :
    (s.load image).readByte a = (s.writeBytes progBase image).readByte a := by
  have mem : (s.load image).mem = (s.writeBytes progBase image).mem := by rw [load_frame fits]
  exact readByte_congr ((load_keepsLoaded s image).1.trans (State.writeBytes_cfg _ _).symm) mem a

theorem readByte_load_inside (hs : Memory.wf s.cfg s.mem = true) (fits : image.length ≤ 3583) {k : Nat}
    (hk : k < image.length) : (s.load image).readByte (0x200 + k) = image[k] := by
  have room := (image_fits_iff image).2 fits
  rw [readByte_load_eq_writeBytes fits]
  exact State.readByte_writeBytes_inside hs (by omega) hk

theorem readByte_load_outside (fits : image.length ≤ 3583) {a : Nat} (ha : a < 0x200 ∨ 0x200 + image.length ≤ a) :
    (s.load image).readByte a = s.readByte a := by
  rw [readByte_load_eq_writeBytes fits]
  exact State.readByte_writeBytes_outside ha

end

/-- Settles O16, by the two cases of `load` on either side of the bound (`image_fits_iff`). -/
theorem loadRejectsTooLargeImage : Obligations.LoadRejectsTooLargeImage := by
  refine fun s image => ⟨fun fits => ?_, fun tooLarge => ?_⟩
  · rw [load_frame fits]
  · exact State.load_tooLarge s fun room => Nat.not_lt.2 ((image_fits_iff image).1 room) tooLarge

/-- Settles O17: what `load` writes is said by `load_frame`, what memory then holds by the two reads after a load, and the
steps before it by `step_offered` and `step_waiting`. -/
theorem loadWritesImageAndEntersAt200 : Obligations.LoadWritesImageAndEntersAt200 := by
  refine ⟨fun s image hs fits => ?_, fun s _ => step_offered s, fun s => step_waiting s⟩
  refine ⟨s.load image, rfl, ?_, ?_, fun _ => readByte_load_inside hs fits, fun _ => readByte_load_outside fits, ?_⟩ <;>
    rw [load_frame fits]

/-! ### Reset (70_reset_and_hazards.md R230, R231) -/

section
variable (c : Config)

theorem resetWith_V (x : RegIdx) : (State.resetWith c).V x = 0#8 := Vector.getElem_replicate _

theorem resetWith_stackEntry (k : Nat) : (State.resetWith c).stackEntry k = 0#16 := rfl

/-- Memory at reset: FONT_DATA at 0x000-0x04F and 0 everywhere else. -/
theorem resetWith_readByte (a : Nat) :
    (State.resetWith c).readByte a = if h : a < 80 then c.fontData[a] else 0#8 := rfl

end

theorem resetWith_inv {c : Config} (legal : Config.wf c = true) : (State.resetWith c).Inv where
  cfg := legal
  mem := Memory.wf_nil c
  stack := rfl
  sp := Nat.zero_le c.stackDepth

/-- `STACK_DEPTH` at reset is at least 1, whatever the free value is. -/
theorem reference_wf : Config.wf Config.reference = true := decide_eq_true (Nat.le_add_left 1 _)

/-- Settles O20: the storages are empty and SP is 0, so what is left is that the parameters are legal. -/
theorem invariantHoldsAtReset : Obligations.InvariantHoldsAtReset :=
  ⟨resetWith_inv reference_wf, fun _ => resetWith_inv⟩

/-- Settles O18: `load` keeps every register of the reset state but PC (`load_frame`), and memory is the font, zeros and
the image. -/
theorem resetValues : Obligations.ResetValues := by
  refine ⟨rfl, fun c image fits => ⟨rfl, ?_, fun u hu => ?_, resetWith_readByte c, ?_, ?_⟩⟩
  · rw [load_frame fits]
  · have differs : ∃ mem pc boot, u = { State.resetWith c with mem := mem, pc := pc, boot := boot } := by
      rcases hu with before | after
      · exact ⟨_, _, _, before⟩
      · exact ⟨_, _, _, after.trans (load_frame fits)⟩
    obtain ⟨_, _, _, rfl⟩ := differs
    exact ⟨resetWith_V c, rfl, rfl, rfl, rfl, resetWith_stackEntry c, rfl⟩
  · exact fun _ => readByte_load_inside (Memory.wf_nil c) fits
  · exact fun _ => readByte_load_outside fits

/-! ### The normal end of a run (70_reset_and_hazards.md R240) -/

/-- An address that a word can be fetched from fits the 12 bits of a jump. -/
theorem zextAddr_setWidth {w : Word} (inRange : w.toNat + 2 ≤ memSize) : zextAddr (w.setWidth 12) = w := by
  simp only [memSize] at inRange
  refine BitVec.eq_of_toNat_eq ?_
  rw [zextAddr_toNat, BitVec.toNat_setWidth]
  omega

/-- The core's step at a normal end jumps to the jump itself, so that taking the turn is all that happened. -/
theorem step_ended {s : State} (ended : s.Ended) (loaded : s.boot = .loaded) (coreTurn : s.nextTurn = .core) :
    step s = .next s.afterTurn := by
  obtain ⟨running, inRange, word⟩ := ended
  have decoded := (congrArg decode word).trans (decode_encode _)
  have target : s.afterTurn.setPc (zextAddr (s.pc.setWidth 12)) = s.afterTurn := by
    rw [zextAddr_setWidth inRange, ← State.afterTurn_pc s]
    rfl
  calc step s = exec (.jp (s.pc.setWidth 12)) { s.afterTurn with pc := s.pc + 2#16 } :=
        stepRunsDecodedInstruction s _ running loaded coreTurn inRange decoded
    _ = .next (s.afterTurn.setPc (zextAddr (s.pc.setWidth 12))) := rfl
    _ = .next s.afterTurn := congrArg _ target

/-- Taking a turn does not leave a normal end. -/
theorem afterTurn_ended {s : State} (ended : s.Ended) : s.afterTurn.Ended := by
  simpa only [State.Ended, State.afterTurn_run, State.afterTurn_pc, State.afterTurn_wordAt] using ended

/-- Settles O56, by `step_ended`: the step takes the turn, which changes the model's own fields alone. -/
theorem endedRunRepeatsTheSelfJump : Obligations.EndedRunRepeatsTheSelfJump := by
  intro s ended loaded coreTurn
  refine ⟨s.afterTurn, step_ended ended loaded coreTurn, afterTurn_ended ended, ?_⟩
  obtain ⟨_, _, turn⟩ := exists_afterTurn s
  rw [turn]

end Sys2Proof.Machine

/-! ## Words written out from the encodings (30_encoding.md R74-R80) -/

namespace Sys2Proof

/-- Settles O6: eight of the words are encodings (`decode_encode`); the SE word is one of group 5 with the low nibble
set (`decode_group5`), and the last lies in the unrecognised space of group 8 (`decode_of_space`). -/
theorem writtenOutWordsDecode : Obligations.WrittenOutWordsDecode :=
  ⟨decode_encode .cls,
    decode_encode .ret,
    decode_encode (.call 0x210#12),
    Machine.decode_group5 0x1#4 0x2#4 0x1#4,
    decode_encode (.addReg 0xA#4 0xB#4),
    decode_encode (.shl 0x1#4 0x2#4),
    decode_encode (.drw 0x0#4 0x1#4 0x5#4),
    decode_encode (.sknp 0x5#4),
    decode_encode (.ldVxI 0x2#4),
    decode_of_space (e := .group8) ⟨by decide, by decide⟩⟩

end Sys2Proof
